-- ==== Sys2Proof/Word.lean ====
section
/-! DEFINITION. The widths of spec/00_scope.md R4 and R5: bytes, 16-bit words, 12-bit addresses. All values are unsigned. -/

namespace Sys2Proof

/-- An 8-bit value: a register V[i], a byte of memory, a timer (R21, R27, R31). -/
abbrev Byte := BitVec 8

/-- A 16-bit value: PC, I, a stack entry, INFO, an instruction word (R24, R25, R29, R36, R90). -/
abbrev Word := BitVec 16

/-- The 12-bit address field nnn (R91). -/
abbrev Addr12 := BitVec 12

/-- A register index 0 to 15 (R21): every value of a field x or y is a legal register (R93). -/
abbrev Reg := Fin 16

/-- A key index 0x0 to 0xF (R206). -/
abbrev Key := Fin 16

end Sys2Proof
end

