-- ==== Sys2Proof/Syntax.lean ====
section
/-! DEFINITION. The 35 instructions of spec/30_encoding.md R95, one constructor per row, in the table's order. Fields are those of R91; a pattern's fixed sub-opcode is no operand. -/

namespace Sys2Proof

/-- One instruction. The docstring of each constructor gives its pattern and the rule of its meaning. -/
inductive Instr where
  /-- 00E0, R190. -/
  | cls
  /-- 00EE, R140. -/
  | ret
  /-- 0NNN, R141. -/
  | sys (nnn : Addr12)
  /-- 1NNN, R142. -/
  | jp (nnn : Addr12)
  /-- 2NNN, R143. -/
  | call (nnn : Addr12)
  /-- 3XNN, R144. -/
  | seVxNn (x : Reg) (nn : Byte)
  /-- 4XNN, R145. -/
  | sneVxNn (x : Reg) (nn : Byte)
  /-- 5XY0, R146. -/
  | seVxVy (x y : Reg)
  /-- 6XNN, R160. -/
  | ldVxNn (x : Reg) (nn : Byte)
  /-- 7XNN, R161. -/
  | addVxNn (x : Reg) (nn : Byte)
  /-- 8XY0, R162. -/
  | ldVxVy (x y : Reg)
  /-- 8XY1, R163. -/
  | orVxVy (x y : Reg)
  /-- 8XY2, R164. -/
  | andVxVy (x y : Reg)
  /-- 8XY3, R165. -/
  | xorVxVy (x y : Reg)
  /-- 8XY4, R166. -/
  | addVxVy (x y : Reg)
  /-- 8XY5, R167. -/
  | subVxVy (x y : Reg)
  /-- 8XY6, R168; y is encoded and ignored (R95). -/
  | shrVx (x y : Reg)
  /-- 8XY7, R169. -/
  | subnVxVy (x y : Reg)
  /-- 8XYE, R170; y is encoded and ignored (R95). -/
  | shlVx (x y : Reg)
  /-- 9XY0, R147. -/
  | sneVxVy (x y : Reg)
  /-- ANNN, R180. -/
  | ldINnn (nnn : Addr12)
  /-- BNNN, R148. -/
  | jpV0Nnn (nnn : Addr12)
  /-- CXNN, R171. -/
  | rndVxNn (x : Reg) (nn : Byte)
  /-- DXYN, R191; n is a row count 0 to 15 (R93). -/
  | drwVxVyN (x y : Reg) (n : Fin 16)
  /-- EX9E, R200. -/
  | skpVx (x : Reg)
  /-- EXA1, R201. -/
  | sknpVx (x : Reg)
  /-- FX07, R202. -/
  | ldVxDt (x : Reg)
  /-- FX0A, R203. -/
  | ldVxK (x : Reg)
  /-- FX15, R204. -/
  | ldDtVx (x : Reg)
  /-- FX18, R205. -/
  | ldStVx (x : Reg)
  /-- FX1E, R181. -/
  | addIVx (x : Reg)
  /-- FX29, R182. -/
  | ldFVx (x : Reg)
  /-- FX33, R183. -/
  | ldBVx (x : Reg)
  /-- FX55, R184; x is the index of the last register stored (R93). -/
  | ldMemVx (x : Reg)
  /-- FX65, R185; x is the index of the last register loaded (R93). -/
  | ldVxMem (x : Reg)
deriving DecidableEq, Repr

end Sys2Proof
end

