-- ==== Sys2Proof/WellFormed.lean ====
section
/-! DEFINITION. Which instruction terms stand for a word. The types of the fields carry every bound (R93: every register index and immediate is legal), so one check is left: SYS nnn is never the word of CLS or of RET (spec/30_encoding.md R94, R99). -/

namespace Sys2Proof

/-- R94 step 1 and R99: 0x00E0 and 0x00EE take precedence over 0NNN, so SYS with one of those two operands is no instruction. -/
def Instr.wellFormed : Instr → Bool
  | .sys nnn => nnn != 0x0E0#12 && nnn != 0x0EE#12
  | .cls | .ret | .jp _ | .call _ | .seVxNn _ _ | .sneVxNn _ _ | .seVxVy _ _ | .ldVxNn _ _ | .addVxNn _ _
  | .ldVxVy _ _ | .orVxVy _ _ | .andVxVy _ _ | .xorVxVy _ _ | .addVxVy _ _ | .subVxVy _ _ | .shrVx _ _
  | .subnVxVy _ _ | .shlVx _ _ | .sneVxVy _ _ | .ldINnn _ | .jpV0Nnn _ | .rndVxNn _ _ | .drwVxVyN _ _ _
  | .skpVx _ | .sknpVx _ | .ldVxDt _ | .ldVxK _ | .ldDtVx _ | .ldStVx _ | .addIVx _ | .ldFVx _ | .ldBVx _
  | .ldMemVx _ | .ldVxMem _ => true

end Sys2Proof
end

