-- ==== Sys2Proof/Decode.lean ====
section
/-! DEFINITION. The decoder of spec/30_encoding.md R94, total on any bytes and rejecting by name, the opcode table of R95, and the encoder of R99. -/

namespace Sys2Proof

/-- Why bytes select no instruction: fewer than two of them, or an undefined word of one of the five groups of R96. -/
inductive DecodeError where
  /-- Fewer than the two bytes of an instruction (R90). -/
  | truncated
  /-- 5XYn with n not 0 (R96). -/
  | undefinedGroup5
  /-- 8XYn with n in 8, 9, A, B, C, D, F (R96). -/
  | undefinedGroup8
  /-- 9XYn with n not 0 (R96). -/
  | undefinedGroup9
  /-- EXnn with nn neither 9E nor A1 (R96). -/
  | undefinedGroupE
  /-- FXnn with nn none of the nine sub-opcodes (R96). -/
  | undefinedGroupF
deriving DecidableEq, Repr

/-! ## Fields (R91) -/

/-- g = op[15:12]. -/
def fieldG (op : Word) : Fin 16 := Fin.ofNat 16 (op >>> 12).toNat

/-- x = op[11:8]. -/
def fieldX (op : Word) : Reg := Fin.ofNat 16 (op >>> 8).toNat

/-- y = op[7:4]. -/
def fieldY (op : Word) : Reg := Fin.ofNat 16 (op >>> 4).toNat

/-- n = op[3:0]. -/
def fieldN (op : Word) : Fin 16 := Fin.ofNat 16 op.toNat

/-- nn = op[7:0]. -/
def fieldNn (op : Word) : Byte := op.setWidth 8

/-- nnn = op[11:0]. -/
def fieldNnn (op : Word) : Addr12 := op.setWidth 12

/-! ## Byte order (R63, R90) -/

/-- The instruction word of two bytes, high byte first. -/
def wordOfBytes (hi lo : Byte) : Word := hi ++ lo

/-- The high byte of a word, stored at the lower address. -/
def highByte (op : Word) : Byte := (op >>> 8).setWidth 8

/-- The low byte of a word. -/
def lowByte (op : Word) : Byte := op.setWidth 8

/-! ## Decoding -/

/-- R94: the two exact words first, then by group, then by the secondary selector. -/
def decodeWord (op : Word) : Except DecodeError Instr :=
  if op = 0x00E0#16 then .ok .cls
  else if op = 0x00EE#16 then .ok .ret
  else match fieldG op with
    | 0x0 => .ok (.sys (fieldNnn op))
    | 0x1 => .ok (.jp (fieldNnn op))
    | 0x2 => .ok (.call (fieldNnn op))
    | 0x3 => .ok (.seVxNn (fieldX op) (fieldNn op))
    | 0x4 => .ok (.sneVxNn (fieldX op) (fieldNn op))
    | 0x5 => if fieldN op = 0 then .ok (.seVxVy (fieldX op) (fieldY op)) else .error .undefinedGroup5
    | 0x6 => .ok (.ldVxNn (fieldX op) (fieldNn op))
    | 0x7 => .ok (.addVxNn (fieldX op) (fieldNn op))
    | 0x8 => match fieldN op with
      | 0x0 => .ok (.ldVxVy (fieldX op) (fieldY op))
      | 0x1 => .ok (.orVxVy (fieldX op) (fieldY op))
      | 0x2 => .ok (.andVxVy (fieldX op) (fieldY op))
      | 0x3 => .ok (.xorVxVy (fieldX op) (fieldY op))
      | 0x4 => .ok (.addVxVy (fieldX op) (fieldY op))
      | 0x5 => .ok (.subVxVy (fieldX op) (fieldY op))
      | 0x6 => .ok (.shrVx (fieldX op) (fieldY op))
      | 0x7 => .ok (.subnVxVy (fieldX op) (fieldY op))
      | 0xE => .ok (.shlVx (fieldX op) (fieldY op))
      | _ => .error .undefinedGroup8
    | 0x9 => if fieldN op = 0 then .ok (.sneVxVy (fieldX op) (fieldY op)) else .error .undefinedGroup9
    | 0xA => .ok (.ldINnn (fieldNnn op))
    | 0xB => .ok (.jpV0Nnn (fieldNnn op))
    | 0xC => .ok (.rndVxNn (fieldX op) (fieldNn op))
    | 0xD => .ok (.drwVxVyN (fieldX op) (fieldY op) (fieldN op))
    | 0xE => match fieldNn op with
      | 0x9E#8 => .ok (.skpVx (fieldX op))
      | 0xA1#8 => .ok (.sknpVx (fieldX op))
      | _ => .error .undefinedGroupE
    | _ => match fieldNn op with  -- 0xF, the one group left
      | 0x07#8 => .ok (.ldVxDt (fieldX op))
      | 0x0A#8 => .ok (.ldVxK (fieldX op))
      | 0x15#8 => .ok (.ldDtVx (fieldX op))
      | 0x18#8 => .ok (.ldStVx (fieldX op))
      | 0x1E#8 => .ok (.addIVx (fieldX op))
      | 0x29#8 => .ok (.ldFVx (fieldX op))
      | 0x33#8 => .ok (.ldBVx (fieldX op))
      | 0x55#8 => .ok (.ldMemVx (fieldX op))
      | 0x65#8 => .ok (.ldVxMem (fieldX op))
      | _ => .error .undefinedGroupF

/-- The instruction at the head of a list of bytes, and the bytes after it (R90: two bytes, high byte first). -/
def decode : List Byte → Except DecodeError (Instr × List Byte)
  | hi :: lo :: rest =>
    match decodeWord (wordOfBytes hi lo) with
    | .ok i => .ok (i, rest)
    | .error e => .error e
  | _ => .error .truncated

/-! ## Encoding (R95, R99): the operands put into their fields beside the fixed bits -/

/-- Format XYN of R92: four nibbles. -/
def wordXYN (g : Nat) (x y : Reg) (n : Nat) : Word := BitVec.ofNat 16 (g * 4096 + x.val * 256 + y.val * 16 + n)

/-- Formats XNN and XKK of R92: a group, a register and a byte. -/
def wordXNN (g : Nat) (x : Reg) (nn : Byte) : Word := BitVec.ofNat 16 (g * 4096 + x.val * 256 + nn.toNat)

/-- Format NNN of R92: a group and a 12-bit address. -/
def wordNNN (g : Nat) (nnn : Addr12) : Word := BitVec.ofNat 16 (g * 4096 + nnn.toNat)

/-- The word of an instruction, row by row of R95. -/
def encodeWord : Instr → Word
  | .cls => 0x00E0#16
  | .ret => 0x00EE#16
  | .sys nnn => wordNNN 0x0 nnn
  | .jp nnn => wordNNN 0x1 nnn
  | .call nnn => wordNNN 0x2 nnn
  | .seVxNn x nn => wordXNN 0x3 x nn
  | .sneVxNn x nn => wordXNN 0x4 x nn
  | .seVxVy x y => wordXYN 0x5 x y 0x0
  | .ldVxNn x nn => wordXNN 0x6 x nn
  | .addVxNn x nn => wordXNN 0x7 x nn
  | .ldVxVy x y => wordXYN 0x8 x y 0x0
  | .orVxVy x y => wordXYN 0x8 x y 0x1
  | .andVxVy x y => wordXYN 0x8 x y 0x2
  | .xorVxVy x y => wordXYN 0x8 x y 0x3
  | .addVxVy x y => wordXYN 0x8 x y 0x4
  | .subVxVy x y => wordXYN 0x8 x y 0x5
  | .shrVx x y => wordXYN 0x8 x y 0x6
  | .subnVxVy x y => wordXYN 0x8 x y 0x7
  | .shlVx x y => wordXYN 0x8 x y 0xE
  | .sneVxVy x y => wordXYN 0x9 x y 0x0
  | .ldINnn nnn => wordNNN 0xA nnn
  | .jpV0Nnn nnn => wordNNN 0xB nnn
  | .rndVxNn x nn => wordXNN 0xC x nn
  | .drwVxVyN x y n => wordXYN 0xD x y n.val
  | .skpVx x => wordXNN 0xE x 0x9E#8
  | .sknpVx x => wordXNN 0xE x 0xA1#8
  | .ldVxDt x => wordXNN 0xF x 0x07#8
  | .ldVxK x => wordXNN 0xF x 0x0A#8
  | .ldDtVx x => wordXNN 0xF x 0x15#8
  | .ldStVx x => wordXNN 0xF x 0x18#8
  | .addIVx x => wordXNN 0xF x 0x1E#8
  | .ldFVx x => wordXNN 0xF x 0x29#8
  | .ldBVx x => wordXNN 0xF x 0x33#8
  | .ldMemVx x => wordXNN 0xF x 0x55#8
  | .ldVxMem x => wordXNN 0xF x 0x65#8

/-- The words of an instruction: always one (R90). -/
def encode (i : Instr) : List Word := [encodeWord i]

/-- The bytes of an instruction as memory holds them: high byte at the lower address (R90). -/
def encodeBytes (i : Instr) : List Byte := [highByte (encodeWord i), lowByte (encodeWord i)]

/-! ## The opcode table (R95): mask and match of each instruction's row -/

/-- The mask of the row: which bits of the word are fixed. -/
def Instr.mask : Instr → Word
  | .cls | .ret => 0xFFFF#16
  | .sys _ | .jp _ | .call _ | .seVxNn _ _ | .sneVxNn _ _ | .ldVxNn _ _ | .addVxNn _ _ | .ldINnn _ | .jpV0Nnn _
  | .rndVxNn _ _ | .drwVxVyN _ _ _ => 0xF000#16
  | .seVxVy _ _ | .ldVxVy _ _ | .orVxVy _ _ | .andVxVy _ _ | .xorVxVy _ _ | .addVxVy _ _ | .subVxVy _ _
  | .shrVx _ _ | .subnVxVy _ _ | .shlVx _ _ | .sneVxVy _ _ => 0xF00F#16
  | .skpVx _ | .sknpVx _ | .ldVxDt _ | .ldVxK _ | .ldDtVx _ | .ldStVx _ | .addIVx _ | .ldFVx _ | .ldBVx _
  | .ldMemVx _ | .ldVxMem _ => 0xF0FF#16

/-- The match of the row: the value of the fixed bits. -/
def Instr.fixedBits : Instr → Word
  | .cls => 0x00E0#16
  | .ret => 0x00EE#16
  | .sys _ => 0x0000#16
  | .jp _ => 0x1000#16
  | .call _ => 0x2000#16
  | .seVxNn _ _ => 0x3000#16
  | .sneVxNn _ _ => 0x4000#16
  | .seVxVy _ _ => 0x5000#16
  | .ldVxNn _ _ => 0x6000#16
  | .addVxNn _ _ => 0x7000#16
  | .ldVxVy _ _ => 0x8000#16
  | .orVxVy _ _ => 0x8001#16
  | .andVxVy _ _ => 0x8002#16
  | .xorVxVy _ _ => 0x8003#16
  | .addVxVy _ _ => 0x8004#16
  | .subVxVy _ _ => 0x8005#16
  | .shrVx _ _ => 0x8006#16
  | .subnVxVy _ _ => 0x8007#16
  | .shlVx _ _ => 0x800E#16
  | .sneVxVy _ _ => 0x9000#16
  | .ldINnn _ => 0xA000#16
  | .jpV0Nnn _ => 0xB000#16
  | .rndVxNn _ _ => 0xC000#16
  | .drwVxVyN _ _ _ => 0xD000#16
  | .skpVx _ => 0xE09E#16
  | .sknpVx _ => 0xE0A1#16
  | .ldVxDt _ => 0xF007#16
  | .ldVxK _ => 0xF00A#16
  | .ldDtVx _ => 0xF015#16
  | .ldStVx _ => 0xF018#16
  | .addIVx _ => 0xF01E#16
  | .ldFVx _ => 0xF029#16
  | .ldBVx _ => 0xF033#16
  | .ldMemVx _ => 0xF055#16
  | .ldVxMem _ => 0xF065#16

/-! ## The host's view of one table word -/

/-- The bytes of the word w of nbits bits as memory holds them: bits above nbits are zero, high byte first. -/
def tableBytes (nbits w : Nat) : List Byte :=
  let op : Word := BitVec.ofNat 16 (w % 2 ^ nbits)
  [highByte op, lowByte op]

/-- The instruction the decoder reads from a word numbered as spec/opcode_table.json numbers it (bit 0 least significant). -/
def decodeTableWord (nbits w : Nat) : Option Instr :=
  match decode (tableBytes nbits w) with
  | .ok (i, _) => some i
  | .error _ => none

end Sys2Proof
end

