-- ==== Sys2Proof/Config.lean ====
section
/-! DEFINITION. The parameters of spec/00_scope.md R4: the sizes the source fixes, and the OPEN ones as constants with no body. -/

namespace Sys2Proof.Config

/-- MEM_SIZE: addresses 0x000 to 0xFFF (R4, R60). -/
@[simp] abbrev memSize : Nat := 4096

/-- ROM_BASE: the reset value of PC and the first ROM byte (R4). -/
@[simp] abbrev romBase : Nat := 0x200

/-- ROM_MAX: 4096 - 0x200 bytes (R4, R271). -/
@[simp] abbrev romMax : Nat := 3584

/-- STACK_DEPTH (R4, R29). -/
@[simp] abbrev stackDepth : Nat := 16

/-- FONT_STRIDE: bytes per glyph (R4, R182). PRESUMED: general knowledge by the spec's own mark K2 (log 8). -/
@[simp] abbrev fontStride : Nat := 5

/-- The font is 16 glyphs of FONT_STRIDE bytes (R4, R38). -/
@[simp] abbrev fontSize : Nat := 80

/-- FONT_BASE is OPEN (R4, D11): any value with FONT_BASE + 80 <= 0x200, that is 0 to 432. No body: nothing can be proved of its value but that bound (log 7). -/
opaque fontOffset : Fin 433

/-- FONT_BASE as a number (R4). -/
def fontBase : Nat := fontOffset.val

/-- FONT_DATA is OPEN (R4, D11): 80 bytes about which nothing is known (log 7). -/
opaque fontData : Vector Byte 80

/-- The byte `rnd` supplied at the n-th draw (R34, D16): a free value, under no law (log 5). -/
opaque rnd : Nat → Byte

/-- KEY_CHOICE (R4, R203, D14): which of several pressed keys the n-th draw takes, as a free number that the machine reduces to a position among the pressed keys (log 6). -/
opaque keyChoice : Nat → Nat

end Sys2Proof.Config
end

