-- ==== Sys2Proof/Machine/State.lean ====
section
/-! DEFINITION. The machine state of spec/10_state.md R20 as plain data, its inputs and outputs (spec/00_scope.md R10), and the state after reset (R37). -/

namespace Sys2Proof.Machine

/-- CAUSE (R36, R241): the four fatal errors, and none, the reset value. The codes are Cause.code. -/
inductive Cause where
  /-- Code 0: no error. -/
  | none
  /-- Code 1, raised by 2NNN (R242). -/
  | stackOverflow
  /-- Code 2, raised by 00EE (R243). -/
  | stackUnderflow
  /-- Code 3, raised at fetch (R244). -/
  | memRangeFetch
  /-- Code 4, raised by DXYN, FX33, FX55, FX65 (R245). -/
  | memRangeData
deriving DecidableEq, Repr

/-- The value a step returns to the host (R123). -/
inductive StepOutcome where
  /-- Continue: the instruction completed. -/
  | continued
  /-- Blocked: FX0A with no key pressed (R203). -/
  | blocked
  /-- DecodeDiag: an undefined word op at address ia (R125). -/
  | decodeDiag (ia op : Word)
  /-- Fatal: an error was raised, now or earlier (R249). -/
  | fatal (cause : Cause) (info : Word)
deriving DecidableEq, Repr

/-- What the host may do between two steps (R129): a timer tick (R126) or a change of the key levels (R127). -/
inductive HostEvent where
  /-- One 60 Hz tick. -/
  | tick
  /-- The 16 key levels become k. -/
  | keys (k : Vector Bool 16)
deriving DecidableEq, Repr

/-- Memory as the bytes that differ from the reset contents: (address, byte) pairs in rising order of address (log 17). -/
abbrev Memory := List Host.Cell

/-- PIX (R32): 32 rows, row 0 the top. A row's most significant bit is column 0, the left edge. -/
abbrev Screen := Vector (BitVec 64) 32

/-- The whole machine. Fields v to info are the state of R20. Fields keys and outcome are ports of R10. Fields draws and schedule are the model's own (logs 24 and 4). -/
structure State where
  /-- V[0..15], V[15] being the flag register VF (R21, R22). -/
  v : Vector Byte 16
  /-- I, the index register (R24). -/
  i : Word
  /-- PC (R25). -/
  pc : Word
  /-- DT, the delay timer (R27). -/
  dt : Byte
  /-- ST, the sound timer (R28). -/
  st : Byte
  /-- STACK[0..15] (R29). -/
  stack : Vector Word 16
  /-- SP, the number of return addresses on the stack, 0 to 16 (R30). -/
  sp : Fin 17
  /-- MEM[0..4095] (R31). -/
  mem : Memory
  /-- PIX (R32). -/
  pix : Screen
  /-- WAIT (R35). -/
  wait : Bool
  /-- HALT (R36). -/
  halt : Bool
  /-- CAUSE (R36). -/
  cause : Cause
  /-- INFO (R36). -/
  info : Word
  /-- KEY[0..15], the key levels at the input port (R33). -/
  keys : Vector Bool 16
  /-- The outcome port: the value the last step returned (R123). -/
  outcome : StepOutcome
  /-- The model's own: how many free values have been drawn. -/
  draws : Nat
  /-- The model's own: for each coming step, the events the host performs before it, in order. -/
  schedule : List (List HostEvent)
deriving DecidableEq, Repr

/-- Why a step could end in a fault. There is no constructor: the spec's four fatal errors are entries the spec describes (R249), so they are next states with HALT = 1 (log 1). Safe: nothing is hidden in a fault. -/
inductive Fault where
deriving DecidableEq, Repr

/-- Why a step could be refused. -/
inductive Refusal where
  /-- Raised by an arm of exec whose instruction has no meaning yet; no arm raises it now. Safe: nothing is claimed of such an instruction. -/
  | notModelled (mnemonic : String)
deriving DecidableEq, Repr

/-- What a meaning answers. -/
abbrev Result := Host.Outcome State Fault Refusal

/-- The state right after reset (R37, R270): memory at its reset contents, so nothing is listed; all else zero; PC = 0x200. The keys are released and no host event is scheduled by choice (logs 3 and 4), the outcome port shows Continue by choice (log 2). -/
def State.reset : State where
  v := Vector.replicate 16 0
  i := 0
  pc := BitVec.ofNat 16 Config.romBase
  dt := 0
  st := 0
  stack := Vector.replicate 16 0
  sp := 0
  mem := []
  pix := Vector.replicate 32 0
  wait := false
  halt := false
  cause := .none
  info := 0
  keys := Vector.replicate 16 false
  outcome := .continued
  draws := 0
  schedule := []

end Sys2Proof.Machine
end

