-- ==== Sys2Proof/Machine/Ops.lean ====
section
/-! DEFINITION. The named operations over registers, memory, stack and screen, the ways an instruction ends, and raising a fatal error (spec/10_state.md, 20_memory.md, 40_step_cycle.md, 60_exceptions.md). -/

namespace Sys2Proof.Machine

/-! ## Registers (R21) -/

/-- V[r]. -/
def State.readV (s : State) (r : Reg) : Byte := s.v[r]

/-- V[r] <- b. -/
def State.writeV (s : State) (r : Reg) (b : Byte) : State := { s with v := s.v.set r b }

/-- The values of V[0..x], in order. -/
def State.readRegsTo (s : State) (x : Reg) : List Byte := s.v.toList.take (x.val + 1)

/-- V[k], V[k+1], ... <- the bytes of a list, in order. -/
def State.writeRegsFrom (s : State) (k : Nat) : List Byte → State
  | [] => s
  | b :: bs => (s.writeV (Fin.ofNat 16 k) b).writeRegsFrom (k + 1) bs

/-! ## Memory (R60 to R62) -/

/-- The font byte at offset k of the font (R38). -/
def fontByte (k : Nat) : Byte := if h : k < 80 then Config.fontData[k] else 0

/-- What an unlisted address reads as: the reset contents (R37), that is the font in its place below 0x200 and 0 elsewhere. -/
def Memory.unlisted (a : Nat) : Byte :=
  if a < Config.romBase then
    if Config.fontBase ≤ a ∧ a < Config.fontBase + Config.fontSize then fontByte (a - Config.fontBase) else 0
  else 0

/-- The byte at an address. -/
def Memory.read : Memory → Nat → Byte
  | [], a => Memory.unlisted a
  | (b, w) :: m, a => if b = a then w else Memory.read m a

/-- The list without the entries of an address. -/
def Memory.erase (m : Memory) (a : Nat) : Memory := m.filter fun c => c.1 != a

/-- The list with an entry put in its place. -/
def Memory.insert (a : Nat) (v : Byte) : Memory → Memory
  | [] => [(a, v)]
  | (b, w) :: m => if a < b then (a, v) :: (b, w) :: m else if a = b then (a, v) :: m else (b, w) :: Memory.insert a v m

/-- MEM[a] <- v, in canonical form: a byte equal to the reset contents is not listed. -/
def Memory.write (m : Memory) (a : Nat) (v : Byte) : Memory :=
  if v = Memory.unlisted a then m.erase a else m.insert a v

/-- The canonical form: addresses strictly rising and below 4096, no entry equal to the reset contents. -/
def Memory.wf (m : Memory) : Bool :=
  decide (m.Pairwise fun c d => c.1 < d.1) && m.all fun c => decide (c.1 < Config.memSize) && (c.2 != Memory.unlisted c.1)

/-- MemRead(a, 1) (R62). The address is known to be in range where an instruction uses it. -/
def State.readMem (s : State) (a : Nat) : Byte := s.mem.read a

/-- MemWrite(a, 1, v) (R62). The address is known to be in range where an instruction uses it. -/
def State.writeMem (s : State) (a : Nat) (v : Byte) : State := { s with mem := s.mem.write a v }

/-- Whether the n addresses from base are all at most 4095 (R62, R66); no address at all is in range. -/
def blockInRange (base n : Nat) : Bool := n = 0 || base + n ≤ Config.memSize

/-- The n bytes from base, in rising order of address (R64). -/
def State.readBlock (s : State) (base : Nat) : Nat → List Byte
  | 0 => []
  | n + 1 => s.readMem base :: s.readBlock (base + 1) n

/-- The bytes of a list stored from base, in rising order of address (R64). -/
def State.writeBlock (s : State) (base : Nat) : List Byte → State
  | [] => s
  | b :: bs => (s.writeMem base b).writeBlock (base + 1) bs

/-! ## Screen (R32) -/

/-- PIX[y][x]: column x of row y. -/
def Screen.pixel (p : Screen) (x : Fin 64) (y : Fin 32) : Bool := p[y].getMsbD x

/-- The pixel read port of R10. -/
def State.pixel (s : State) (x : Fin 64) (y : Fin 32) : Bool := s.pix.pixel x y

/-- The output sound_on (R28): 1 exactly while ST > 0. -/
def State.soundOn (s : State) : Bool := s.st != 0

/-! ## How an instruction ends (R120, R122) -/

/-- npc: the address of the following instruction (R122). -/
def State.npc (s : State) : Word := s.pc + 2

/-- Completion with PC <- target: WAIT is cleared and the outcome is Continue (R120). -/
def State.finishAt (s : State) (target : Word) : Result :=
  .next { s with pc := target, wait := false, outcome := .continued }

/-- Completion with the default advance, pc <- npc (R122). -/
def State.finish (s : State) : Result := s.finishAt s.npc

/-- Completion of a skip (R149): one extra advance by 2 when the condition holds. -/
def State.skipIf (s : State) (cond : Bool) : Result := s.finishAt (if cond then s.npc + 2 else s.npc)

/-- The blocked end of FX0A (R203): only WAIT, and PC stays at the instruction. -/
def State.block (s : State) : Result := .next { s with wait := true, outcome := .blocked }

/-- The undefined-word no-op (R125): pc <- npc, WAIT <- 0, outcome DecodeDiag(ia, op). -/
def State.undefinedNoop (s : State) (op : Word) : Result :=
  .next { s with pc := s.npc, wait := false, outcome := .decodeDiag s.pc op }

/-! ## Fatal errors (R241, R249, R250) -/

/-- The 3-bit code of a cause (R241). -/
def Cause.code : Cause → BitVec 3
  | .none => 0
  | .stackOverflow => 1
  | .stackUnderflow => 2
  | .memRangeFetch => 3
  | .memRangeData => 4

/-- raise E(info) (R249): HALT, CAUSE and INFO are written and the outcome is Fatal; nothing else changes, so PC stays at the instruction. -/
def State.raise (s : State) (c : Cause) (info : Word) : Result :=
  .next { s with halt := true, cause := c, info := info, outcome := .fatal c info }

/-- MemRangeData (R245): INFO is 4096, the lowest out-of-range address. -/
def State.raiseData (s : State) : Result := s.raise .memRangeData (BitVec.ofNat 16 Config.memSize)

/-- A step of a halted machine (R128): nothing changes and the outcome is the latched Fatal again. -/
def State.haltedStep (s : State) : Result := .next { s with outcome := .fatal s.cause s.info }

/-- The only way out of a fatal error (R250, R270): reset puts all state to its reset value. The key inputs are not touched, and the host's coming events and the free values still to be drawn are not machine state. -/
def State.resetEvent (s : State) : State :=
  { State.reset with keys := s.keys, draws := s.draws, schedule := s.schedule }

/-! ## Stack (R29, R30) -/

/-- Push (R29, R143): STACK[SP] <- target, SP <- SP + 1; StackOverflow when SP = 16. The continuation says where PC goes. -/
def State.callTo (s : State) (target : Word) : Result :=
  if h : s.sp.val < Config.stackDepth then
    State.finishAt { s with stack := s.stack.set s.sp.val s.npc h, sp := ⟨s.sp.val + 1, Nat.succ_lt_succ h⟩ } target
  else s.raise .stackOverflow s.pc

/-- Pop (R29, R140): SP <- SP - 1, PC <- STACK[SP]; StackUnderflow when SP = 0. -/
def State.popReturn (s : State) : Result :=
  if h : s.sp.val = 0 then s.raise .stackUnderflow s.pc
  else
    State.finishAt { s with sp := ⟨s.sp.val - 1, by have := s.sp.isLt; omega⟩ } (s.stack[s.sp.val - 1]'(by have := s.sp.isLt; omega))

/-! ## Fetch (R121, R63) -/

/-- Whether both bytes of the instruction at PC exist (R26, R121). -/
def State.fetchInRange (s : State) : Bool := s.pc.toNat ≤ 4094

/-- The two bytes at PC and PC + 1. -/
def State.fetchBytes (s : State) : List Byte := [s.readMem s.pc.toNat, s.readMem (s.pc.toNat + 1)]

/-- The word at PC, high byte first (R63). -/
def State.fetchWord (s : State) : Word := wordOfBytes (s.readMem s.pc.toNat) (s.readMem (s.pc.toNat + 1))

end Sys2Proof.Machine
end

