-- ==== Sys2Proof/Machine/Flags.lean ====
section
/-! DEFINITION. The flag values of spec/10_state.md R22 and the order of the flag and result writes of R23. -/

namespace Sys2Proof.Machine

/-- VF as a register index (R21, R22). -/
def regF : Reg := 15

/-- A flag as the byte 0 or 1 (R22). -/
def flagByte (b : Bool) : Byte := if b then 1 else 0

/-- Carry of 8XY4: 1 if the sum exceeds 255 (R166). -/
def carryFlag (a b : Byte) : Byte := flagByte (decide (a.toNat + b.toNat > 255))

/-- No borrow of 8XY5 and 8XY7: 1 if minuend >= subtrahend (R167, R169). -/
def noBorrowFlag (minuend subtrahend : Byte) : Byte := flagByte (decide (minuend.toNat ≥ subtrahend.toNat))

/-- The bit shifted out to the right: the old bit 0 (R168). -/
def shiftedOutRight (a : Byte) : Byte := a &&& 1#8

/-- The bit shifted out to the left: the old bit 7 (R170). -/
def shiftedOutLeft (a : Byte) : Byte := (a >>> 7) &&& 1#8

/-- Flag first, result last: with x = 0xF the result stands (R23, decision D7). -/
def State.writeFlagThenResult (s : State) (x : Reg) (flag result : Byte) : State :=
  (s.writeV regF flag).writeV x result

end Sys2Proof.Machine
end

