-- ==== Sys2Proof/Machine/Alu.lean ====
section
/-! DEFINITION. Register load and ALU: the meanings of spec/42_alu.md. Operands are read from s before anything is written (spec/10_state.md R23). -/

namespace Sys2Proof.Machine

/-- 6XNN (R160). -/
def execLdVxNn (x : Reg) (nn : Byte) (s : State) : Result := (s.writeV x nn).finish

/-- 7XNN (R161): no flag. -/
def execAddVxNn (x : Reg) (nn : Byte) (s : State) : Result := (s.writeV x (s.readV x + nn)).finish

/-- 8XY0 (R162). -/
def execLdVxVy (x y : Reg) (s : State) : Result := (s.writeV x (s.readV y)).finish

/-- 8XY1 (R163). -/
def execOrVxVy (x y : Reg) (s : State) : Result := (s.writeV x (s.readV x ||| s.readV y)).finish

/-- 8XY2 (R164). -/
def execAndVxVy (x y : Reg) (s : State) : Result := (s.writeV x (s.readV x &&& s.readV y)).finish

/-- 8XY3 (R165). -/
def execXorVxVy (x y : Reg) (s : State) : Result := (s.writeV x (s.readV x ^^^ s.readV y)).finish

/-- 8XY4 (R166). -/
def execAddVxVy (x y : Reg) (s : State) : Result :=
  (s.writeFlagThenResult x (carryFlag (s.readV x) (s.readV y)) (s.readV x + s.readV y)).finish

/-- 8XY5 (R167). -/
def execSubVxVy (x y : Reg) (s : State) : Result :=
  (s.writeFlagThenResult x (noBorrowFlag (s.readV x) (s.readV y)) (s.readV x - s.readV y)).finish

/-- 8XY6 (R168): the source is V[x], y is ignored. -/
def execShrVx (x _y : Reg) (s : State) : Result :=
  (s.writeFlagThenResult x (shiftedOutRight (s.readV x)) (s.readV x >>> 1)).finish

/-- 8XY7 (R169). -/
def execSubnVxVy (x y : Reg) (s : State) : Result :=
  (s.writeFlagThenResult x (noBorrowFlag (s.readV y) (s.readV x)) (s.readV y - s.readV x)).finish

/-- 8XYE (R170): the source is V[x], y is ignored. -/
def execShlVx (x _y : Reg) (s : State) : Result :=
  (s.writeFlagThenResult x (shiftedOutLeft (s.readV x)) (s.readV x <<< 1)).finish

/-- CXNN (R171): one fresh byte of the input rnd (R34). -/
def execRndVxNn (x : Reg) (nn : Byte) (s : State) : Result :=
  State.finish { s.writeV x (Config.rnd s.draws &&& nn) with draws := s.draws + 1 }

end Sys2Proof.Machine
end

