-- ==== Sys2Proof/Machine/Operands.lean ====
section
/-! DEFINITION. How operands are formed (spec/30_encoding.md R93, 43_index_memory.md R182 and R186, 44_display.md R191, 45_keypad_timers.md R203 and R206). -/

namespace Sys2Proof.Machine

/-- zext_16(nnn) (R6, R93). -/
def zext16 (nnn : Addr12) : Word := nnn.setWidth 16

/-- The key a register names: its low nibble (R206). -/
def keyIndex (b : Byte) : Key := Fin.ofNat 16 (b &&& 0x0F#8).toNat

/-- The digit a register names: its low nibble (R182). -/
def digitIndex (b : Byte) : Nat := (b &&& 0x0F#8).toNat

/-- FONT_BASE + FONT_STRIDE * d (R182). -/
def glyphAddress (b : Byte) : Word := BitVec.ofNat 16 (Config.fontBase + Config.fontStride * digitIndex b)

/-- I moved on by k, reduced mod 4096 (R24, R181, R184, R185). -/
def indexPlus (i : Word) (k : Nat) : Word := BitVec.ofNat 16 ((i.toNat + k) % Config.memSize)

/-- The start column of a sprite: V[x] mod 64 (R191). -/
def startColumn (b : Byte) : Nat := b.toNat % 64

/-- The start row of a sprite: V[y] mod 32 (R191). -/
def startRow (b : Byte) : Nat := b.toNat % 32

/-- The decimal digits of a byte: hundreds, tens, ones, each a whole byte (R183). -/
def bcdDigits (b : Byte) : List Byte :=
  [BitVec.ofNat 8 (b.toNat / 100), BitVec.ofNat 8 (b.toNat / 10 % 10), BitVec.ofNat 8 (b.toNat % 10)]

/-- KEY[k] at this step (R33). -/
def State.keyPressed (s : State) (k : Key) : Bool := s.keys[k]

/-- The set P of R203: the keys pressed at this step, in rising order. -/
def State.pressedKeys (s : State) : List Key := (List.finRange 16).filter fun k => s.keyPressed k

/-- KEY_CHOICE (R203, D14): one of the pressed keys. A single one is taken; among several the choice is free. -/
def chooseKey (draw : Nat) : List Key → Key
  | [] => 0
  | [k] => k
  | ks => ks.getD (Config.keyChoice draw % ks.length) 0

/-- A key index as a register's value. -/
def keyByte (k : Key) : Byte := BitVec.ofNat 8 k.val

end Sys2Proof.Machine
end

