-- ==== Sys2Proof/Machine/Control.lean ====
section
/-! DEFINITION. Control transfer: the meanings of spec/41_control_transfer.md. -/

namespace Sys2Proof.Machine

/-- 00EE (R140). -/
def execRet (s : State) : Result := s.popReturn

/-- 0NNN (R141): a no-op, nnn ignored. -/
def execSys (_nnn : Addr12) (s : State) : Result := s.finish

/-- 1NNN (R142). -/
def execJp (nnn : Addr12) (s : State) : Result := s.finishAt (zext16 nnn)

/-- 2NNN (R143): the address pushed is npc. -/
def execCall (nnn : Addr12) (s : State) : Result := s.callTo (zext16 nnn)

/-- 3XNN (R144). -/
def execSeVxNn (x : Reg) (nn : Byte) (s : State) : Result := s.skipIf (s.readV x == nn)

/-- 4XNN (R145). -/
def execSneVxNn (x : Reg) (nn : Byte) (s : State) : Result := s.skipIf (s.readV x != nn)

/-- 5XY0 (R146). -/
def execSeVxVy (x y : Reg) (s : State) : Result := s.skipIf (s.readV x == s.readV y)

/-- 9XY0 (R147). -/
def execSneVxVy (x y : Reg) (s : State) : Result := s.skipIf (s.readV x != s.readV y)

/-- BNNN (R148): the 16-bit sum, not reduced mod 4096. -/
def execJpV0Nnn (nnn : Addr12) (s : State) : Result := s.finishAt (zext16 nnn + (s.readV 0).setWidth 16)

end Sys2Proof.Machine
end

