-- ==== Sys2Proof/Machine/Display.lean ====
section
/-! DEFINITION. The pixel-buffer write port: the meanings of spec/44_display.md. -/

namespace Sys2Proof.Machine

/-- A sprite byte placed at column x0 of a row (R191, R192): bit 7 at x0, bits beyond column 63 cut off. -/
def spriteRow (x0 : Nat) (b : Byte) : BitVec 64 := ((b.setWidth 64) <<< 56) >>> x0

/-- The sprite rows drawn from row y down, rows below 31 cut off (R191), with the collision found so far. -/
def drawRows (x0 : Nat) : Nat → List Byte → Screen → Bool → Screen × Bool
  | _, [], pix, coll => (pix, coll)
  | y, b :: bs, pix, coll =>
    if h : y < 32 then
      drawRows x0 (y + 1) bs (pix.set y (pix[y] ^^^ spriteRow x0 b)) (coll || (pix[y] &&& spriteRow x0 b) != 0)
    else drawRows x0 (y + 1) bs pix coll

/-- 00E0 (R190). -/
def execCls (s : State) : Result := State.finish { s with pix := Vector.replicate 32 0 }

/-- DXYN (R191): all n bytes are read and range-checked (R193); the position is read before VF is written (R23). -/
def execDrwVxVyN (x y : Reg) (n : Fin 16) (s : State) : Result :=
  if blockInRange s.i.toNat n.val then
    let drawn := drawRows (startColumn (s.readV x)) (startRow (s.readV y)) (s.readBlock s.i.toNat n.val) s.pix false
    State.finish { s.writeV regF (flagByte drawn.2) with pix := drawn.1 }
  else s.raiseData

end Sys2Proof.Machine
end

