-- ==== Sys2Proof/Machine/IndexMemory.lean ====
section
/-! DEFINITION. Index register and memory transfer: the meanings of spec/43_index_memory.md. The whole block is range-checked before anything is read or written (spec/20_memory.md R62). -/

namespace Sys2Proof.Machine

/-- ANNN (R180). -/
def execLdINnn (nnn : Addr12) (s : State) : Result := State.finish { s with i := zext16 nnn }

/-- FX1E (R181): mod 4096, no flag. -/
def execAddIVx (x : Reg) (s : State) : Result := State.finish { s with i := indexPlus s.i (s.readV x).toNat }

/-- FX29 (R182). -/
def execLdFVx (x : Reg) (s : State) : Result := State.finish { s with i := glyphAddress (s.readV x) }

/-- FX33 (R183). -/
def execLdBVx (x : Reg) (s : State) : Result :=
  if blockInRange s.i.toNat 3 then (s.writeBlock s.i.toNat (bcdDigits (s.readV x))).finish else s.raiseData

/-- FX55 (R184). -/
def execLdMemVx (x : Reg) (s : State) : Result :=
  if blockInRange s.i.toNat (x.val + 1) then
    State.finish { s.writeBlock s.i.toNat (s.readRegsTo x) with i := indexPlus s.i (x.val + 1) }
  else s.raiseData

/-- FX65 (R185). -/
def execLdVxMem (x : Reg) (s : State) : Result :=
  if blockInRange s.i.toNat (x.val + 1) then
    State.finish { s.writeRegsFrom 0 (s.readBlock s.i.toNat (x.val + 1)) with i := indexPlus s.i (x.val + 1) }
  else s.raiseData

end Sys2Proof.Machine
end

