-- ==== Sys2Proof/Machine/Keypad.lean ====
section
/-! DEFINITION. Keypad and timer instructions: the meanings of spec/45_keypad_timers.md. -/

namespace Sys2Proof.Machine

/-- EX9E (R200). -/
def execSkpVx (x : Reg) (s : State) : Result := s.skipIf (s.keyPressed (keyIndex (s.readV x)))

/-- EXA1 (R201). -/
def execSknpVx (x : Reg) (s : State) : Result := s.skipIf (!s.keyPressed (keyIndex (s.readV x)))

/-- FX07 (R202). -/
def execLdVxDt (x : Reg) (s : State) : Result := (s.writeV x s.dt).finish

/-- FX0A (R203): blocked while no key is pressed, else one of the pressed keys. -/
def execLdVxK (x : Reg) (s : State) : Result :=
  if s.pressedKeys.isEmpty then s.block
  else State.finish { s.writeV x (keyByte (chooseKey s.draws s.pressedKeys)) with draws := s.draws + 1 }

/-- FX15 (R204). -/
def execLdDtVx (x : Reg) (s : State) : Result := State.finish { s with dt := s.readV x }

/-- FX18 (R205). -/
def execLdStVx (x : Reg) (s : State) : Result := State.finish { s with st := s.readV x }

end Sys2Proof.Machine
end

