-- ==== Sys2Proof/Machine/Events.lean ====
section
/-! DEFINITION. The host's events of spec/00_scope.md R7: tick (R126), keys (R127), load (R271), reset (R270), and the delivery of the scheduled ones before a step (R8, R129). -/

namespace Sys2Proof.Machine

/-- One decrement with a floor at 0 (R126). -/
def countDown (t : Byte) : Byte := if t = 0 then 0 else t - 1

/-- tick (R126): both timers in the same event; nothing when halted (R128). -/
def State.tick (s : State) : State :=
  if s.halt then s else { s with dt := countDown s.dt, st := countDown s.st }

/-- keys(k) (R127): the 16 levels become k; accepted when halted too (R128). -/
def State.setKeys (s : State) (k : Vector Bool 16) : State := { s with keys := k }

/-- load(a, b) (R10, R271): a byte of the program at 0x200 <= a <= 0xFFF; there is no other load. -/
def State.load (s : State) (a : Nat) (b : Byte) : State :=
  if Config.romBase ≤ a ∧ a < Config.memSize then s.writeMem a b else s

/-- The ROM-loading collaborator (R271): the image verbatim from 0x200, cut at 3584 bytes. -/
def State.loadRom (s : State) (image : List Byte) : State :=
  s.writeBlock Config.romBase (image.take Config.romMax)

/-- What one host event between steps does. -/
def HostEvent.apply (s : State) : HostEvent → State
  | .tick => s.tick
  | .keys k => s.setKeys k

/-- The events scheduled before the coming step, performed in order (R129); the step after it takes the next group. -/
def State.deliver (s : State) : State :=
  match s.schedule with
  | [] => s
  | events :: later => events.foldl HostEvent.apply { s with schedule := later }

end Sys2Proof.Machine
end

