-- ==== Sys2Proof/Machine/Cycle.lean ====
section
/-! DEFINITION. The fetch-decode-execute cycle of spec/40_step_cycle.md R120. -/

namespace Sys2Proof.Machine

/-- The event `step` (R120), checks in the order of R247: HALT, fetch range, decode, the instruction. -/
def coreStep (s : State) : Host.Outcome State Fault Refusal :=
  if s.halt then s.haltedStep
  else if s.fetchInRange then
    match decode s.fetchBytes with
    | .ok (i, _) => exec i s
    | .error _ => s.undefinedNoop s.fetchWord
  else s.raise .memRangeFetch s.pc

end Sys2Proof.Machine
end

