-- ==== Sys2Proof/Machine/Step.lean ====
section
/-! DEFINITION. The machine's step: the host events scheduled before it (spec/40_step_cycle.md R129), then the event `step` (R120); and where a word stands that the next step runs. -/

namespace Sys2Proof.Machine

/-- One step of the machine: the host events scheduled before it, then the event `step` (R8, R129, log 4). -/
def step (s : State) : Host.Outcome State Fault Refusal := coreStep s.deliver

/-- The state with one table word stored where the next step fetches (log 16): its bytes at PC and PC + 1, high byte first. Where PC is out of the fetch range there is no such place and the state is left alone. -/
def State.withFetchWord (s : State) (nbits w : Nat) : State :=
  if s.fetchInRange then s.writeBlock s.pc.toNat (tableBytes nbits w) else s

end Sys2Proof.Machine
end

