-- ==== Sys2Proof/Machine/Trace.lean ====
section
/-! DEFINITION. Executions as sequences of the atomic events of spec/00_scope.md R7. -/

namespace Sys2Proof.Machine

/-- The atomic events of R7. -/
inductive Event where
  /-- reset (R270). -/
  | reset
  /-- load(a, b) (R271). -/
  | load (a : Nat) (b : Byte)
  /-- keys(k) (R127). -/
  | keys (k : Vector Bool 16)
  /-- step (R120). -/
  | step
  /-- tick (R126). -/
  | tick
deriving DecidableEq, Repr

/-- What one event does. -/
def Event.apply (s : State) : Event → Host.Outcome State Fault Refusal
  | .reset => .next s.resetEvent
  | .load a b => .next (s.load a b)
  | .keys k => .next (s.setKeys k)
  | .step => coreStep s
  | .tick => .next s.tick

/-- An execution: events one after another (R7), stopping where a step has no next state. -/
def runEvents : List Event → State → Host.Outcome State Fault Refusal
  | [], s => .next s
  | e :: es, s =>
    match Event.apply s e with
    | .next t => runEvents es t
    | .fault r => .fault r
    | .refused r => .refused r

/-- A scheduled host event as an event of R7. -/
def HostEvent.toEvent : HostEvent → Event
  | .tick => .tick
  | .keys k => .keys k

/-- Whether a sequence of events is one the host may issue (R10, R72): a load stands between a reset and the first step after it, at an address 0x200 to 0xFFF. The flag says whether the boot window is open. -/
def legalEvents : Bool → List Event → Bool
  | _, [] => true
  | _, .reset :: es => legalEvents true es
  | boot, .load a _ :: es => boot && decide (Config.romBase ≤ a ∧ a < Config.memSize) && legalEvents boot es
  | boot, .keys _ :: es => legalEvents boot es
  | boot, .tick :: es => legalEvents boot es
  | _, .step :: es => legalEvents false es

end Sys2Proof.Machine
end

