-- ==== Sys2Proof/Safety.lean ====
section
/-! DEFINITION. The terms claims are stated in: completion, raising, frames, invariants, and what the end of a run is (spec/40_step_cycle.md R124, R130; spec/10_state.md R35, R36, R41; spec/60_exceptions.md R249). -/

namespace Sys2Proof.Machine

/-! ## How an instruction ends -/

/-- Instruction i at s completes (R120): exec answers a next state with WAIT clear and outcome Continue, of which P holds. -/
def Completes (i : Instr) (s : State) (P : State → Prop) : Prop :=
  ∃ t, exec i s = .next t ∧ t.wait = false ∧ t.outcome = .continued ∧ P t

/-- Raising at s (R249): the answer is s with HALT, CAUSE, INFO and the outcome written and nothing else. -/
def Raises (answer : Result) (s : State) (c : Cause) (info : Word) : Prop :=
  answer = .next { s with halt := true, cause := c, info := info, outcome := .fatal c info }

/-! ## Frames -/

/-- The parts of the state, beside the registers V and PC, that an instruction may name as changed. -/
inductive Part where
  /-- I. -/
  | index
  /-- STACK and SP. -/
  | stack
  /-- DT. -/
  | delay
  /-- ST. -/
  | sound
  /-- MEM. -/
  | memory
  /-- PIX. -/
  | screen
  /-- The model's counter of free values. -/
  | draws
deriving DecidableEq, Repr

/-- From s to t nothing changes but the parts and registers named, PC, WAIT and the outcome. HALT, CAUSE, INFO, the key inputs and the host's schedule never change. Memory is compared byte by byte. -/
def Frame (changed : List Part) (regs : List Reg) (s t : State) : Prop :=
  (∀ r : Reg, r ∉ regs → t.readV r = s.readV r) ∧
  (.index ∉ changed → t.i = s.i) ∧
  (.stack ∉ changed → t.sp = s.sp ∧ ∀ k : Fin 16, t.stack[k] = s.stack[k]) ∧
  (.delay ∉ changed → t.dt = s.dt) ∧
  (.sound ∉ changed → t.st = s.st) ∧
  (.memory ∉ changed → ∀ a, t.readMem a = s.readMem a) ∧
  (.screen ∉ changed → ∀ x y, t.pixel x y = s.pixel x y) ∧
  (.draws ∉ changed → t.draws = s.draws) ∧
  t.halt = s.halt ∧ t.cause = s.cause ∧ t.info = s.info ∧ t.keys = s.keys ∧ t.schedule = s.schedule

/-- Memory outside the n addresses from base reads as before. -/
def SameMemoryOutside (base n : Nat) (s t : State) : Prop :=
  ∀ a, ¬ (base ≤ a ∧ a < base + n) → t.readMem a = s.readMem a

/-! ## The pixel a sprite sets (R191, R192) -/

/-- Whether the sprite of DXYN at s has a set bit at column px of row py: row r of the sprite is the byte at I + r, its bit 7 at column V[x] mod 64, and what falls beyond column 63 or row 31 is cut off. -/
def spriteBit (s : State) (x y : Reg) (n : Fin 16) (px : Fin 64) (py : Fin 32) : Bool :=
  let x0 := (s.readV x).toNat % 64
  let y0 := (s.readV y).toNat % 32
  decide (y0 ≤ py.val ∧ py.val < y0 + n.val ∧ x0 ≤ px.val ∧ px.val < x0 + 8) &&
    (s.readMem (s.i.toNat + (py.val - y0))).getLsbD (7 - (px.val - x0))

/-! ## Invariants -/

/-- R41: I is at most 0xFFF, PC at most 0x10FE, and every return address on the stack is in 2 to 4096. SP is at most 16 by its type. -/
def RangesHold (s : State) : Prop :=
  s.i.toNat ≤ 0xFFF ∧ s.pc.toNat ≤ 0x10FE ∧
    ∀ k : Fin 16, k.val < s.sp.val → 2 ≤ s.stack[k].toNat ∧ s.stack[k].toNat ≤ 4096

/-- R35: WAIT is 1 exactly when the last step answered Blocked, and then the machine is not halted and PC stands at an FX0A. -/
def WaitAgrees (s : State) : Prop :=
  (s.wait = true ↔ s.outcome = .blocked) ∧
    (s.wait = true → s.halt = false ∧ s.fetchInRange = true ∧ ∃ x, decodeWord s.fetchWord = .ok (.ldVxK x))

/-- R36: HALT is 1 exactly when the last step answered Fatal, with the latched CAUSE and INFO; CAUSE and INFO are 0 while HALT is 0, and name an error while it is 1. -/
def LatchAgrees (s : State) : Prop :=
  (s.halt = true → s.outcome = .fatal s.cause s.info ∧ s.cause ≠ .none) ∧
    (s.halt = false → s.cause = .none ∧ s.info = 0 ∧ ∀ c n, s.outcome ≠ .fatal c n)

/-! ## Safe runs and their end -/

/-- A halted state is never a successful final state (R249). -/
def State.running (s : State) : Bool := !s.halt

/-- The recommended END_OF_RUN (R130): PC = a and the word at a is 1NNN with nnn = a. -/
def State.atSelfJump (s : State) : Prop :=
  s.halt = false ∧ s.fetchInRange = true ∧ ∃ nnn, decodeWord s.fetchWord = .ok (.jp nnn) ∧ zext16 nnn = s.pc

/-- END_OF_RUN is a parameter (R130, D20): a run of events reaches a successful end when it reaches a running state of which the chosen predicate holds. -/
def RunEndsWell (endOfRun : State → Prop) (events : List Event) (s : State) : Prop :=
  ∃ t, runEvents events s = .next t ∧ t.running = true ∧ endOfRun t

end Sys2Proof.Machine
end

