-- ==== Sys2Proof/Certificates/Slice0/Obligations.lean ====
section
/-! DEFINITION. The statements for the provers, from the numbered rules of spec/. A docstring names the rule or section; where a clause rests on a decision of the spec or a choice of the model it names the decision or the log entry. `draws` and `schedule` are the model's own fields (logs 24 and 4). -/

open Sys2Proof Sys2Proof.Machine

/-! ## Encoding -/

/-- Words written out in 30_encoding.md (section 4) and 95_test_vectors.md decode to the instructions they stand for, and three undefined ones are rejected. -/
def Obligations.SpecWordsDecodeAsWritten : Prop :=
  decodeWord 0x6005#16 = .ok (.ldVxNn 0 0x05#8) ∧
  decodeWord 0x8104#16 = .ok (.addVxVy 1 0) ∧
  decodeWord 0xD125#16 = .ok (.drwVxVyN 1 2 5) ∧
  decodeWord 0x1204#16 = .ok (.jp 0x204#12) ∧
  decodeWord 0xF155#16 = .ok (.ldMemVx 1) ∧
  decodeWord 0xEA9E#16 = .ok (.skpVx 0xA) ∧
  decodeWord 0x8AB7#16 = .ok (.subnVxVy 0xA 0xB) ∧
  decodeWord 0x00E1#16 = .ok (.sys 0x0E1#12) ∧
  decodeWord 0x5121#16 = .error .undefinedGroup5 ∧
  decodeWord 0x8128#16 = .error .undefinedGroup8 ∧
  decodeWord 0xF175#16 = .error .undefinedGroupF

/-- 30_encoding.md sections 2 and 4: decoding undoes encoding, for every well-formed instruction at every operand, on the word and on the bytes in memory order. -/
def Obligations.DecodeUndoesEncode : Prop :=
  ∀ i : Instr, i.wellFormed = true →
    decodeWord (encodeWord i) = .ok i ∧ ∀ rest, decode (encodeBytes i ++ rest) = .ok (i, rest)

/-- 30_encoding.md sections 2 and 4: encoding undoes decoding, so no word has two meanings and no bit of a word is lost. -/
def Obligations.EncodeUndoesDecode : Prop :=
  ∀ (op : Word) (i : Instr), decodeWord op = .ok i → i.wellFormed = true ∧ encodeWord i = op

/-- 30_encoding.md section 2: a word selects a row of the opcode map exactly when its bits under the row's mask are the row's match, and for 0NNN it is neither 0x00E0 nor 0x00EE. -/
def Obligations.DecodeSelectsTheTableRow : Prop :=
  (∀ (op : Word) (i : Instr), decodeWord op = .ok i →
    op &&& i.mask = i.fixedBits ∧ ((∃ nnn, i = .sys nnn) → op ≠ 0x00E0#16 ∧ op ≠ 0x00EE#16)) ∧
  (∀ (op : Word) (i : Instr), op &&& i.mask = i.fixedBits →
    ((∃ nnn, i = .sys nnn) → op ≠ 0x00E0#16 ∧ op ≠ 0x00EE#16) →
    ∃ j, decodeWord op = .ok j ∧ j.mask = i.mask ∧ j.fixedBits = i.fixedBits)

/-- 30_encoding.md section 3: the undefined words are exactly those listed, each rejected under its group's name. Groups 5 and 9 follow the spec's decision D24 (log 15). -/
def Obligations.UndefinedWordsAreExactlyTheListed : Prop :=
  ∀ (op : Word) (e : DecodeError), decodeWord op = .error e ↔
    (op.toNat / 4096 = 0x5 ∧ op.toNat % 16 ≠ 0 ∧ e = .undefinedGroup5) ∨
    (op.toNat / 4096 = 0x8 ∧ op.toNat % 16 ∈ [0x8, 0x9, 0xA, 0xB, 0xC, 0xD, 0xF] ∧ e = .undefinedGroup8) ∨
    (op.toNat / 4096 = 0x9 ∧ op.toNat % 16 ≠ 0 ∧ e = .undefinedGroup9) ∨
    (op.toNat / 4096 = 0xE ∧ op.toNat % 256 ∉ [0x9E, 0xA1] ∧ e = .undefinedGroupE) ∨
    (op.toNat / 4096 = 0xF ∧ op.toNat % 256 ∉ [0x07, 0x0A, 0x15, 0x18, 0x1E, 0x29, 0x33, 0x55, 0x65] ∧ e = .undefinedGroupF)

/-! ## The step cycle -/

/-- 40_step_cycle.md section 1: where the machine is not halted and the two bytes at PC, high byte first, decode to i, a step is exec of i at the state the scheduled host events leave (log 4). -/
def Obligations.StepRunsTheDecodedInstruction : Prop :=
  ∀ (s : State) (i : Instr), s.halt = false → s.pc.toNat ≤ 4094 →
    decodeWord (s.readMem s.pc.toNat ++ s.readMem (s.pc.toNat + 1)) = .ok i → step s = exec i s.deliver

/-- 40_step_cycle.md sections 3 and 4: what happens before a step changes the key levels and the timers only, counts no timer of a halted machine (decision D18, log 20), and uses up one group of the schedule (the model's own, log 4). -/
def Obligations.HostEventsKeepTheProgramState : Prop :=
  ∀ s : State, (∃ k d e, s.deliver = { s with keys := k, dt := d, st := e, schedule := s.schedule.tail }) ∧
    (s.schedule = [] → s.deliver = s) ∧
    (s.halt = true → s.deliver.dt = s.dt ∧ s.deliver.st = s.st)

/-- 40_step_cycle.md section 2: an undefined word advances PC by 2, clears WAIT, answers DecodeDiag with its address and bits, and changes nothing else. The outcome's place in the state is the model's (log 2), the diagnostic's form is decision D23 (log 15). -/
def Obligations.UndefinedWordIsANoop : Prop :=
  ∀ (s : State) (e : DecodeError), s.halt = false → s.pc.toNat ≤ 4094 →
    decodeWord (s.readMem s.pc.toNat ++ s.readMem (s.pc.toNat + 1)) = .error e →
    coreStep s = .next { s with
      pc := s.pc + 2, wait := false,
      outcome := .decodeDiag s.pc (s.readMem s.pc.toNat ++ s.readMem (s.pc.toNat + 1)) }

/-- 60_exceptions.md sections 1 and 3: a step with PC above 4094 raises MemRangeFetch with INFO = PC and has no other effect. The latch is decision D2 (log 1), the content of INFO decision D3 (log 26). -/
def Obligations.FetchOutOfRangeHalts : Prop :=
  ∀ s : State, s.halt = false → 4094 < s.pc.toNat → Raises (coreStep s) s .memRangeFetch s.pc

/-- 40_step_cycle.md section 3, 60_exceptions.md section 3: a halted machine stays exactly as it is over any number of steps, but for the host's inputs, and answers the latched error again. This is decision D18 (log 20). -/
def Obligations.HaltedMachineStaysAsItIs : Prop :=
  ∀ (n : Nat) (s : State), s.halt = true →
    ∃ t, Sys2Proof.core.run (n + 1) s = .next t ∧
      t = { s with keys := t.keys, schedule := t.schedule, outcome := .fatal s.cause s.info }

/-- 40_step_cycle.md section 3: a tick takes one from each timer with a floor at 0, in the same event, and changes nothing else; a halted tick does nothing, which is decision D18 (log 20). -/
def Obligations.TickCountsBothTimersDown : Prop :=
  ∀ s : State, (s.halt = true → s.tick = s) ∧
    (s.halt = false → s.tick.dt.toNat = s.dt.toNat - 1 ∧ s.tick.st.toNat = s.st.toNat - 1 ∧
      Frame [.delay, .sound] [] s s.tick ∧ s.tick.pc = s.pc ∧ s.tick.wait = s.wait ∧ s.tick.outcome = s.outcome)

/-- R127: a keys event replaces all 16 levels and changes nothing else, so it completes no waiting FX0A. The levels' place in the state is the model's (log 3). -/
def Obligations.KeysEventReplacesTheLevels : Prop :=
  ∀ (s : State) (k : Vector Bool 16), (∀ j : Key, (s.setKeys k).keys[j] = k[j]) ∧
    (s.setKeys k) = { s with keys := (s.setKeys k).keys }

/-- 10_state.md section 8, 70_reset_and_hazards.md section 1: after a reset from any state, halted or not, every piece of state has its reset value and the key inputs are untouched. The clear pixels are decision D17 (log 9), the font's place and bytes are parameters (decision D11, log 7), the status bits are decisions D2 and D15 (logs 1 and 23). State.reset is such a state. -/
def Obligations.ResetPutsEveryPieceToItsValue : Prop :=
  (∀ s : State, s.resetEvent.keys = s.keys ∧
    (∀ r : Reg, s.resetEvent.readV r = 0) ∧ s.resetEvent.i = 0 ∧ s.resetEvent.pc = 0x200#16 ∧
    s.resetEvent.dt = 0 ∧ s.resetEvent.st = 0 ∧
    (∀ k : Fin 16, s.resetEvent.stack[k] = 0) ∧ s.resetEvent.sp = 0 ∧
    (∀ k : Fin 80, s.resetEvent.readMem (Config.fontBase + k.val) = Config.fontData[k]) ∧
    (∀ a, ¬ (Config.fontBase ≤ a ∧ a < Config.fontBase + 80) → s.resetEvent.readMem a = 0) ∧
    (∀ x y, s.resetEvent.pixel x y = false) ∧
    s.resetEvent.wait = false ∧ s.resetEvent.halt = false ∧ s.resetEvent.cause = .none ∧ s.resetEvent.info = 0) ∧
  State.reset.resetEvent = State.reset

/-- 70_reset_and_hazards.md section 2, 00_scope.md section 6: the loader copies the image from 0x200, dropping what is beyond 3584 bytes, and touches nothing else. One load event writes its byte at an address 0x200 to 0xFFF and nothing else; at any other address it does nothing, which is the model's choice (log 19). -/
def Obligations.RomIsCopiedVerbatim : Prop :=
  ∀ (s : State) (image : List Byte),
    (∀ (j : Nat) (h : j < image.length), j < 3584 → (s.loadRom image).readMem (0x200 + j) = image[j]) ∧
    (∀ a, ¬ (0x200 ≤ a ∧ a < 0x200 + min image.length 3584) → (s.loadRom image).readMem a = s.readMem a) ∧
    s.loadRom image = { s with mem := (s.loadRom image).mem } ∧
    (∀ (a : Nat) (b : Byte), 0x200 ≤ a → a ≤ 0xFFF →
      (s.load a b).readMem a = b ∧ (∀ a', a' ≠ a → (s.load a b).readMem a' = s.readMem a') ∧
      s.load a b = { s with mem := (s.load a b).mem }) ∧
    (∀ (a : Nat) (b : Byte), ¬ (0x200 ≤ a ∧ a ≤ 0xFFF) → s.load a b = s)

/-- 00_scope.md section 6, 40_step_cycle.md section 4: running the machine over a schedule is the execution of the atomic events tick, keys and step in the order the schedule gives, for every schedule. The schedule is the model's own (log 4). -/
def Obligations.RunIsTheScheduledEventSequence : Prop :=
  ∀ s : State, Sys2Proof.core.run s.schedule.length s =
    runEvents (s.schedule.flatMap fun group => group.map HostEvent.toEvent ++ [.step]) { s with schedule := [] }

/-- 40_step_cycle.md section 1: every step of every state has a next state, so no step ends in a fault or a refusal; fatal errors are next states by decision D2 and log 1. -/
def Obligations.EveryStepAnswersNext : Prop :=
  ∀ s : State, ∃ t, step s = .next t

/-! ## Invariants -/

/-- 10_state.md sections 7, 8 and 9, 20_memory.md section 1: the invariants below hold right after reset. That the outcome port reads Continue before any step, which the parts about WAIT and HALT rest on, is the model's choice (log 2); the form of memory is the model's own (log 17). -/
def Obligations.InvariantsHoldAtReset : Prop :=
  RangesHold State.reset ∧ WaitAgrees State.reset ∧ LatchAgrees State.reset ∧ State.reset.mem.wf = true

/-- 10_state.md section 9: every step keeps I at most 0xFFF, PC at most 0x10FE and every return address in 2 to 4096, as the spec derives. The masking of I is decision D4 (log 13). -/
def Obligations.EveryStepKeepsTheRanges : Prop :=
  ∀ s t : State, RangesHold s → step s = .next t → RangesHold t

/-- 10_state.md section 7: every step keeps WAIT equal to whether the last step answered Blocked, with PC at the waiting FX0A meanwhile. The flag is decision D15 (log 23). -/
def Obligations.EveryStepKeepsWaitAndBlockedTogether : Prop :=
  ∀ s t : State, WaitAgrees s → step s = .next t → WaitAgrees t

/-- 10_state.md section 7: every step keeps HALT, CAUSE and INFO in agreement with the outcome. The latch is decision D2 (log 1). -/
def Obligations.EveryStepKeepsTheErrorLatch : Prop :=
  ∀ s t : State, LatchAgrees s → step s = .next t → LatchAgrees t

/-- 20_memory.md section 1: every step keeps memory in its canonical form (the model's own form, log 17), so that no step ever writes outside addresses 0 to 4095. -/
def Obligations.EveryStepKeepsTheMemoryForm : Prop :=
  ∀ s t : State, s.mem.wf = true → step s = .next t → t.mem.wf = true

/-- 20_memory.md section 1: two memories in canonical form (log 17) that read the same at every address are the same data. -/
def Obligations.EqualReadsMeanEqualMemories : Prop :=
  ∀ m m' : Memory, m.wf = true → m'.wf = true → (∀ a, m.read a = m'.read a) → m = m'

/-! ## Whole-machine rules -/

/-- 60_exceptions.md sections 1 and 3, 40_step_cycle.md section 1: the instructions that raise, when, with which cause and INFO, and that raising changes nothing else. The latch and its contents are decisions D2 and D3 (logs 1 and 26); the address I + k is not reduced and the whole block is checked by decision D6 (log 13), cut-off sprite rows too by decision D10 (log 11). -/
def Obligations.InstructionsRaiseExactlyTheListedErrors : Prop :=
  ∀ (i : Instr) (s t : State), s.halt = false → exec i s = .next t →
    (t.halt = true ↔
      ((∃ nnn, i = .call nnn) ∧ s.sp.val = 16) ∨ (i = .ret ∧ s.sp.val = 0) ∨
      ((∃ x, i = .ldBVx x) ∧ 4095 < s.i.toNat + 2) ∨
      (∃ x, (i = .ldMemVx x ∨ i = .ldVxMem x) ∧ 4095 < s.i.toNat + x.val) ∨
      (∃ x y n, i = .drwVxVyN x y n ∧ 0 < n.val ∧ 4095 < s.i.toNat + n.val - 1)) ∧
    (t.halt = true →
      t = { s with halt := true, cause := t.cause, info := t.info, outcome := .fatal t.cause t.info } ∧
      ((∃ nnn, i = .call nnn) → t.cause = .stackOverflow ∧ t.info = s.pc) ∧
      (i = .ret → t.cause = .stackUnderflow ∧ t.info = s.pc) ∧
      ((∀ nnn, i ≠ .call nnn) → i ≠ .ret → t.cause = .memRangeData ∧ t.info = 0x1000#16))

/-- 20_memory.md section 1: only FX33 and FX55 change memory, and what the instructions other than FX33, FX55, FX65 and DXYN do does not depend on memory. -/
def Obligations.OnlyTheMemoryInstructionsTouchMemory : Prop :=
  (∀ (i : Instr) (s t : State), exec i s = .next t → (∀ x, i ≠ .ldBVx x ∧ i ≠ .ldMemVx x) →
    ∀ a, t.readMem a = s.readMem a) ∧
  (∀ (i : Instr) (s t : State) (m : Memory), exec i s = .next t →
    (∀ x, i ≠ .ldBVx x ∧ i ≠ .ldMemVx x ∧ i ≠ .ldVxMem x) → (∀ x y n, i ≠ .drwVxVyN x y n) →
    exec i { s with mem := m } = .next { t with mem := m })

/-- 10_state.md section 6, 44_display.md: only 00E0 and DXYN change the pixel buffer, and only DXYN depends on it; 00E0 leaves the same state whatever the buffer held. -/
def Obligations.OnlyClearAndDrawTouchTheScreen : Prop :=
  (∀ (i : Instr) (s t : State), exec i s = .next t → i ≠ .cls → (∀ x y n, i ≠ .drwVxVyN x y n) →
    ∀ x y, t.pixel x y = s.pixel x y) ∧
  (∀ (i : Instr) (s t : State) (p : Screen), exec i s = .next t → i ≠ .cls → (∀ x y n, i ≠ .drwVxVyN x y n) →
    exec i { s with pix := p } = .next { t with pix := p }) ∧
  (∀ (s t : State) (p : Screen), exec .cls s = .next t → exec .cls { s with pix := p } = .next t)

/-- 10_state.md section 5: only 2NNN and 00EE change SP or depend on it, 2NNN writes only the entry at SP, no other instruction changes an entry, and only 00EE depends on the entries; a popped entry keeps its value (decision D22, log 25). -/
def Obligations.OnlyCallAndReturnTouchTheStack : Prop :=
  (∀ (i : Instr) (s t : State), exec i s = .next t →
    ((∀ nnn, i ≠ .call nnn) → i ≠ .ret → t.sp = s.sp) ∧
    ((∀ nnn, i ≠ .call nnn) → ∀ k : Fin 16, t.stack[k] = s.stack[k]) ∧
    (∀ k : Fin 16, k.val ≠ s.sp.val → t.stack[k] = s.stack[k])) ∧
  (∀ (i : Instr) (s t : State) (entries : Vector Word 16) (depth : Fin 17), exec i s = .next t →
    (∀ nnn, i ≠ .call nnn) → i ≠ .ret →
    exec i { s with stack := entries, sp := depth } = .next { t with stack := entries, sp := depth }) ∧
  (∀ (nnn : Addr12) (s t : State) (entries : Vector Word 16), exec (.call nnn) s = .next t →
    ∃ u, exec (.call nnn) { s with stack := entries } = .next u ∧ u = { t with stack := u.stack } ∧
      ∀ h : s.sp.val < 16, u.stack[s.sp.val] = t.stack[s.sp.val])

/-- 10_state.md section 4: no instruction counts a timer; DT is written by FX15 only and ST by FX18 only; no instruction depends on ST, and only FX07 depends on DT: FX15 and FX18 leave the same state whatever the timer they write held. -/
def Obligations.TimersBelongToTheirInstructions : Prop :=
  (∀ (i : Instr) (s t : State), exec i s = .next t →
    ((∀ x, i ≠ .ldDtVx x) → t.dt = s.dt) ∧ ((∀ x, i ≠ .ldStVx x) → t.st = s.st)) ∧
  (∀ (i : Instr) (s t : State) (b : Byte), exec i s = .next t →
    ((∀ x, i ≠ .ldStVx x) → exec i { s with st := b } = .next { t with st := b }) ∧
    (∀ x, i = .ldStVx x → exec i { s with st := b } = .next t) ∧
    (∀ x, i = .ldDtVx x → exec i { s with dt := b } = .next t) ∧
    ((∀ x, i ≠ .ldDtVx x ∧ i ≠ .ldVxDt x) → exec i { s with dt := b } = .next { t with dt := b }))

/-- 10_state.md section 2: the registers each instruction may change. VF is among them as a flag for 8XY4, 8XY5, 8XY6, 8XY7, 8XYE and DXYN only. -/
def Obligations.RegistersChangeOnlyWhereNamed : Prop :=
  ∀ (i : Instr) (s t : State) (r : Reg), exec i s = .next t → t.readV r ≠ s.readV r →
    (∃ y, i = .addVxVy r y ∨ i = .subVxVy r y ∨ i = .shrVx r y ∨ i = .subnVxVy r y ∨ i = .shlVx r y ∨
      i = .ldVxVy r y ∨ i = .orVxVy r y ∨ i = .andVxVy r y ∨ i = .xorVxVy r y) ∨
    (∃ nn, i = .ldVxNn r nn ∨ i = .addVxNn r nn ∨ i = .rndVxNn r nn) ∨
    i = .ldVxDt r ∨ i = .ldVxK r ∨ (∃ x : Reg, r ≤ x ∧ i = .ldVxMem x) ∨
    (r = 15 ∧ ((∃ x y, i = .addVxVy x y ∨ i = .subVxVy x y ∨ i = .shrVx x y ∨ i = .subnVxVy x y ∨ i = .shlVx x y) ∨
      ∃ x y n, i = .drwVxVyN x y n))

/-- 10_state.md section 3: no instruction but ANNN, FX1E, FX29, FX55 and FX65 changes I. -/
def Obligations.IndexChangesOnlyWhereNamed : Prop :=
  ∀ (i : Instr) (s t : State), exec i s = .next t → t.i ≠ s.i →
    (∃ nnn, i = .ldINnn nnn) ∨ ∃ x, i = .addIVx x ∨ i = .ldFVx x ∨ i = .ldMemVx x ∨ i = .ldVxMem x

/-- 20_memory.md section 3: an instruction whose two bytes FX55 stores is what runs when PC comes to them, with nothing in between (the spec derives this). -/
def Obligations.FetchSeesWhatWasStored : Prop :=
  ∀ (x : Reg) (s t : State) (k : Fin 15) (i : Instr), s.halt = false → exec (.ldMemVx x) s = .next t → t.halt = false →
    k.val < x.val → decodeWord (s.readV k.castSucc ++ s.readV k.succ) = .ok i →
    coreStep { t with pc := BitVec.ofNat 16 (s.i.toNat + k.val) } =
      exec i { t with pc := BitVec.ofNat 16 (s.i.toNat + k.val) }

/-- 40_step_cycle.md section 4: at a jump to itself, however long the machine runs, everything but the timers, the inputs, WAIT, the outcome and the model's schedule (log 4) stays, and the jump is still there (the spec derives this; the end of a run is decision D20, log 21). -/
def Obligations.SelfJumpIsAFixedPoint : Prop :=
  ∀ (n : Nat) (s : State), s.atSelfJump → ∃ t, Sys2Proof.core.run n s = .next t ∧ t.atSelfJump ∧
    t = { s with dt := t.dt, st := t.st, keys := t.keys, wait := t.wait, outcome := t.outcome, schedule := t.schedule }

/-! ## Control transfer -/

/-- 41_control_transfer.md, 0NNN: it only advances PC by 2, whatever nnn is, and answers Continue. -/
def Obligations.SysOnlyAdvances : Prop :=
  ∀ (nnn : Addr12) (s : State), Completes (.sys nnn) s fun t => t.pc = s.pc + 2 ∧ Frame [] [] s t

/-- 41_control_transfer.md, 1NNN: PC becomes nnn, and nothing else changes. -/
def Obligations.JumpSetsPc : Prop :=
  ∀ (nnn : Addr12) (s : State), Completes (.jp nnn) s fun t => t.pc.toNat = nnn.toNat ∧ Frame [] [] s t

/-- 41_control_transfer.md, BNNN: PC becomes nnn + V[0], a 16-bit sum that is not reduced mod 4096 (decision D4, log 13). -/
def Obligations.OffsetJumpAddsV0 : Prop :=
  ∀ (nnn : Addr12) (s : State),
    Completes (.jpV0Nnn nnn) s fun t => t.pc.toNat = nnn.toNat + (s.readV 0).toNat ∧ Frame [] [] s t

/-- 41_control_transfer.md, 2NNN with SP below 16: npc goes into the entry at SP, SP goes up by one, PC becomes nnn. The use of the entry at SP is decision D22 (log 25). -/
def Obligations.CallPushesTheNextAddress : Prop :=
  ∀ (nnn : Addr12) (s : State) (h : s.sp.val < 16),
    Completes (.call nnn) s fun t =>
      t.stack[s.sp.val] = s.pc + 2 ∧ (∀ k : Fin 16, k.val ≠ s.sp.val → t.stack[k] = s.stack[k]) ∧
      t.sp.val = s.sp.val + 1 ∧ t.pc.toNat = nnn.toNat ∧ Frame [.stack] [] s t

/-- 41_control_transfer.md, 00EE with SP above 0: SP goes down by one and PC becomes the entry there; the entries keep their values (decision D22, log 25). -/
def Obligations.ReturnPopsTheAddress : Prop :=
  ∀ (s : State) (h : 0 < s.sp.val),
    Completes .ret s fun t =>
      t.sp.val = s.sp.val - 1 ∧ t.pc = s.stack[s.sp.val - 1]'(by omega) ∧
      (∀ k : Fin 16, t.stack[k] = s.stack[k]) ∧ Frame [.stack] [] s t

/-- 60_exceptions.md sections 1 and 3: the seventeenth nested call and a return on an empty stack raise, with INFO the address of the instruction, and change nothing else (decisions D2 and D3, logs 1 and 26). -/
def Obligations.StackErrorsRaise : Prop :=
  (∀ (nnn : Addr12) (s : State), s.sp.val = 16 → Raises (exec (.call nnn) s) s .stackOverflow s.pc) ∧
  (∀ s : State, s.sp.val = 0 → Raises (exec .ret s) s .stackUnderflow s.pc)

/-- 95_test_vectors.md part 1, S4: a call followed at once by a return comes back to the instruction after the call with the stack as deep as before, and nothing else changed. -/
def Obligations.CallThenReturnComesBack : Prop :=
  ∀ (nnn : Addr12) (s : State), s.sp.val < 16 →
    ∃ t u, exec (.call nnn) s = .next t ∧ exec .ret t = .next u ∧ u.pc = s.pc + 2 ∧ u.sp = s.sp ∧
      (∀ k : Fin 16, k.val < s.sp.val → u.stack[k] = s.stack[k]) ∧ Frame [.stack] [] s u

/-- R144, R145, R146, R147: a skip advances PC by 4 when its comparison holds and by 2 otherwise, and changes nothing else. -/
def Obligations.ComparisonSkips : Prop :=
  (∀ (x : Reg) (nn : Byte) (s : State), Completes (.seVxNn x nn) s fun t =>
    t.pc = s.pc + (if s.readV x = nn then 4 else 2) ∧ Frame [] [] s t) ∧
  (∀ (x : Reg) (nn : Byte) (s : State), Completes (.sneVxNn x nn) s fun t =>
    t.pc = s.pc + (if s.readV x ≠ nn then 4 else 2) ∧ Frame [] [] s t) ∧
  (∀ (x y : Reg) (s : State), Completes (.seVxVy x y) s fun t =>
    t.pc = s.pc + (if s.readV x = s.readV y then 4 else 2) ∧ Frame [] [] s t) ∧
  (∀ (x y : Reg) (s : State), Completes (.sneVxVy x y) s fun t =>
    t.pc = s.pc + (if s.readV x ≠ s.readV y then 4 else 2) ∧ Frame [] [] s t)

/-! ## Register load and ALU -/

/-- R160: V[x] becomes nn and PC advances by exactly 2; nothing else changes. -/
def Obligations.LoadImmediate : Prop :=
  ∀ (x : Reg) (nn : Byte) (s : State), Completes (.ldVxNn x nn) s fun t =>
    t.readV x = nn ∧ t.pc = s.pc + 2 ∧ Frame [] [x] s t

/-- R161: V[x] becomes V[x] + nn mod 256, with no flag effect. -/
def Obligations.AddImmediateWithoutFlag : Prop :=
  ∀ (x : Reg) (nn : Byte) (s : State), Completes (.addVxNn x nn) s fun t =>
    (t.readV x).toNat = ((s.readV x).toNat + nn.toNat) % 256 ∧ t.pc = s.pc + 2 ∧ Frame [] [x] s t

/-- R162: V[x] becomes V[y]. -/
def Obligations.CopyRegister : Prop :=
  ∀ (x y : Reg) (s : State), Completes (.ldVxVy x y) s fun t =>
    t.readV x = s.readV y ∧ t.pc = s.pc + 2 ∧ Frame [] [x] s t

/-- 42_alu.md, 8XY1, 8XY2, 8XY3: each bit of V[x] becomes the OR, AND or exclusive OR of the operands' bits; VF is unchanged unless it is the destination (the spec reads the table so). -/
def Obligations.BitwiseInstructions : Prop :=
  (∀ (x y : Reg) (s : State), Completes (.orVxVy x y) s fun t =>
    (∀ b < 8, (t.readV x).getLsbD b = ((s.readV x).getLsbD b || (s.readV y).getLsbD b)) ∧
    t.pc = s.pc + 2 ∧ Frame [] [x] s t) ∧
  (∀ (x y : Reg) (s : State), Completes (.andVxVy x y) s fun t =>
    (∀ b < 8, (t.readV x).getLsbD b = ((s.readV x).getLsbD b && (s.readV y).getLsbD b)) ∧
    t.pc = s.pc + 2 ∧ Frame [] [x] s t) ∧
  (∀ (x y : Reg) (s : State), Completes (.xorVxVy x y) s fun t =>
    (∀ b < 8, (t.readV x).getLsbD b = ((s.readV x).getLsbD b ^^ (s.readV y).getLsbD b)) ∧
    t.pc = s.pc + 2 ∧ Frame [] [x] s t)

/-- 42_alu.md, 8XY4: the sum mod 256 and the carry, in plain numbers. With x = 0xF the result stands (decision D7, log 10). -/
def Obligations.AddWithCarry : Prop :=
  ∀ (x y : Reg) (s : State), Completes (.addVxVy x y) s fun t =>
    (t.readV x).toNat = ((s.readV x).toNat + (s.readV y).toNat) % 256 ∧
    (x ≠ 15 → t.readV 15 = if 255 < (s.readV x).toNat + (s.readV y).toNat then 1 else 0) ∧
    t.pc = s.pc + 2 ∧ Frame [] [x, 15] s t

/-- 42_alu.md, 8XY5 and 8XY7: the difference mod 256 and the no-borrow flag, in plain numbers. With x = 0xF the result stands (decision D7, log 10). -/
def Obligations.SubtractWithNoBorrow : Prop :=
  (∀ (x y : Reg) (s : State), Completes (.subVxVy x y) s fun t =>
    (t.readV x).toNat = ((s.readV x).toNat + 256 - (s.readV y).toNat) % 256 ∧
    (x ≠ 15 → t.readV 15 = if (s.readV y).toNat ≤ (s.readV x).toNat then 1 else 0) ∧
    t.pc = s.pc + 2 ∧ Frame [] [x, 15] s t) ∧
  (∀ (x y : Reg) (s : State), Completes (.subnVxVy x y) s fun t =>
    (t.readV x).toNat = ((s.readV y).toNat + 256 - (s.readV x).toNat) % 256 ∧
    (x ≠ 15 → t.readV 15 = if (s.readV x).toNat ≤ (s.readV y).toNat then 1 else 0) ∧
    t.pc = s.pc + 2 ∧ Frame [] [x, 15] s t)

/-- 42_alu.md, 8XY6 and 8XYE: V[x] shifted by one, VF the bit shifted out, V[y] not used (decision D26, log 29). With x = 0xF the result stands (decision D7, log 10). -/
def Obligations.ShiftsByOne : Prop :=
  (∀ (x y : Reg) (s : State), Completes (.shrVx x y) s fun t =>
    (t.readV x).toNat = (s.readV x).toNat / 2 ∧
    (x ≠ 15 → (t.readV 15).toNat = (s.readV x).toNat % 2) ∧ t.pc = s.pc + 2 ∧ Frame [] [x, 15] s t) ∧
  (∀ (x y : Reg) (s : State), Completes (.shlVx x y) s fun t =>
    (t.readV x).toNat = (s.readV x).toNat * 2 % 256 ∧
    (x ≠ 15 → (t.readV 15).toNat = (s.readV x).toNat / 128) ∧ t.pc = s.pc + 2 ∧ Frame [] [x, 15] s t)

/-- 42_alu.md, CXNN: V[x] becomes a free byte masked by nn, a fresh one each time (decision D16). The byte is the model's free value of log 5, of which nothing is known. -/
def Obligations.RandomByteIsMasked : Prop :=
  ∀ (x : Reg) (nn : Byte) (s : State), Completes (.rndVxNn x nn) s fun t =>
    t.readV x = Config.rnd s.draws &&& nn ∧ t.readV x &&& ~~~nn = 0 ∧ t.draws = s.draws + 1 ∧
    t.pc = s.pc + 2 ∧ Frame [.draws] [x] s t

/-! ## Index register and memory -/

/-- R180: I becomes nnn. -/
def Obligations.LoadIndex : Prop :=
  ∀ (nnn : Addr12) (s : State), Completes (.ldINnn nnn) s fun t =>
    t.i.toNat = nnn.toNat ∧ t.pc = s.pc + 2 ∧ Frame [.index] [] s t

/-- 43_index_memory.md, FX1E and FX29: I + V[x] mod 4096, with no flag; and the glyph address of the low nibble of V[x] (decision D12, log 12), whatever FONT_BASE is, with 5 bytes a glyph (log 8). -/
def Obligations.IndexArithmetic : Prop :=
  (∀ (x : Reg) (s : State), Completes (.addIVx x) s fun t =>
    t.i.toNat = (s.i.toNat + (s.readV x).toNat) % 4096 ∧ t.pc = s.pc + 2 ∧ Frame [.index] [] s t) ∧
  (∀ (x : Reg) (s : State), Completes (.ldFVx x) s fun t =>
    t.i.toNat = Config.fontBase + 5 * ((s.readV x).toNat % 16) ∧ t.i.toNat < 0x200 ∧
    t.pc = s.pc + 2 ∧ Frame [.index] [] s t)

/-- 43_index_memory.md, FX33 with I at most 4093: hundreds, tens and ones at I, I+1, I+2, every other byte as before, I unchanged. -/
def Obligations.StoreDecimalDigits : Prop :=
  ∀ (x : Reg) (s : State), s.i.toNat + 2 ≤ 4095 → Completes (.ldBVx x) s fun t =>
    (t.readMem s.i.toNat).toNat = (s.readV x).toNat / 100 ∧
    (t.readMem (s.i.toNat + 1)).toNat = (s.readV x).toNat / 10 % 10 ∧
    (t.readMem (s.i.toNat + 2)).toNat = (s.readV x).toNat % 10 ∧
    SameMemoryOutside s.i.toNat 3 s t ∧ t.pc = s.pc + 2 ∧ Frame [.memory] [] s t

/-- 43_index_memory.md, FX55 with I + x at most 4095: V[k] at I + k for every k up to x, every other byte as before, I moved past the block mod 4096 (decision D4, log 13). -/
def Obligations.StoreRegisters : Prop :=
  ∀ (x : Reg) (s : State), s.i.toNat + x.val ≤ 4095 → Completes (.ldMemVx x) s fun t =>
    (∀ k : Reg, k ≤ x → t.readMem (s.i.toNat + k.val) = s.readV k) ∧
    SameMemoryOutside s.i.toNat (x.val + 1) s t ∧ t.i.toNat = (s.i.toNat + x.val + 1) % 4096 ∧
    t.pc = s.pc + 2 ∧ Frame [.memory, .index] [] s t

/-- 43_index_memory.md, FX65 with I + x at most 4095: V[k] from I + k for every k up to x, the registers above x and all of memory as before, I moved past the block mod 4096 (decision D4, log 13). -/
def Obligations.LoadRegisters : Prop :=
  ∀ (x : Reg) (s : State), s.i.toNat + x.val ≤ 4095 → Completes (.ldVxMem x) s fun t =>
    (∀ k : Reg, k ≤ x → t.readV k = s.readMem (s.i.toNat + k.val)) ∧
    (∀ k : Reg, x < k → t.readV k = s.readV k) ∧ t.i.toNat = (s.i.toNat + x.val + 1) % 4096 ∧
    t.pc = s.pc + 2 ∧ Frame [.index] ((List.finRange 16).filter fun k => k ≤ x) s t

/-- 60_exceptions.md sections 1 and 3: FX33, FX55, FX65 and DXYN raise MemRangeData with INFO 4096 when the last address of their block is above 4095, and change nothing else (decisions D2, D3, D6 and D10, logs 1, 26, 13 and 11). -/
def Obligations.DataRangeErrorsRaise : Prop :=
  (∀ (x : Reg) (s : State), 4095 < s.i.toNat + 2 → Raises (exec (.ldBVx x) s) s .memRangeData 0x1000#16) ∧
  (∀ (x : Reg) (s : State), 4095 < s.i.toNat + x.val →
    Raises (exec (.ldMemVx x) s) s .memRangeData 0x1000#16 ∧ Raises (exec (.ldVxMem x) s) s .memRangeData 0x1000#16) ∧
  (∀ (x y : Reg) (n : Fin 16) (s : State), 0 < n.val → 4095 < s.i.toNat + n.val - 1 →
    Raises (exec (.drwVxVyN x y n) s) s .memRangeData 0x1000#16)

/-- 95_test_vectors.md part 1, S7: FX55 and then FX65 with the same x and with I set back brings back V[0] to V[x], whatever the registers held in between. -/
def Obligations.StoreThenLoadBringsRegistersBack : Prop :=
  ∀ (x : Reg) (s : State) (w : Vector Byte 16), s.i.toNat + x.val ≤ 4095 →
    ∃ t u, exec (.ldMemVx x) s = .next t ∧ exec (.ldVxMem x) { t with i := s.i, v := w } = .next u ∧
      ∀ k : Reg, k ≤ x → u.readV k = s.readV k

/-! ## Display -/

/-- R190: 00E0 clears every pixel, and nothing else: VF, memory and the registers keep their values. -/
def Obligations.ClearScreen : Prop :=
  ∀ s : State, Completes .cls s fun t =>
    (∀ x y, t.pixel x y = false) ∧ t.pc = s.pc + 2 ∧ Frame [.screen] [] s t

/-- 44_display.md, DXYN with its bytes in range (or none): each pixel is toggled exactly where the sprite has a set bit, and VF is 1 exactly if a pixel went from set to clear. Clipping, bit order and the reading of clipped rows are decisions D8, D9 and D10 (log 11); for x or y = 0xF the position is the old VF (D7, log 10). -/
def Obligations.DrawTogglesTheSpritePixels : Prop :=
  ∀ (x y : Reg) (n : Fin 16) (s : State), (n.val = 0 ∨ s.i.toNat + n.val - 1 ≤ 4095) →
    Completes (.drwVxVyN x y n) s fun t =>
      (∀ px py, t.pixel px py = (s.pixel px py ^^ spriteBit s x y n px py)) ∧
      (t.readV 15 = 1 ↔ ∃ px py, s.pixel px py = true ∧ t.pixel px py = false) ∧
      (t.readV 15 = 1 ∨ t.readV 15 = 0) ∧ t.pc = s.pc + 2 ∧ Frame [.screen] [15] s t

/-- 95_test_vectors.md part 1, S6: drawing the same sprite twice at the same place brings every pixel back; on an empty background the first draw reports no collision and the second reports one exactly if the sprite has a set bit on the screen (decision D8, log 11). -/
def Obligations.DrawingTwiceRestoresTheScreen : Prop :=
  ∀ (x y : Reg) (n : Fin 16) (s : State), (n.val = 0 ∨ s.i.toNat + n.val - 1 ≤ 4095) →
    ∃ t u, exec (.drwVxVyN x y n) s = .next t ∧ exec (.drwVxVyN x y n) { t with v := s.v } = .next u ∧
      (∀ px py, u.pixel px py = s.pixel px py) ∧
      ((∀ px py, s.pixel px py = false) → t.readV 15 = 0 ∧
        (u.readV 15 = 1 ↔ ∃ px py, spriteBit s x y n px py = true))

/-! ## Keypad and timers -/

/-- 45_keypad_timers.md, EX9E and EXA1: a skip on the level of the key that the low nibble of V[x] names (decision D13, log 12). -/
def Obligations.KeySkips : Prop :=
  (∀ (x : Reg) (s : State) (k : Key), k.val = (s.readV x).toNat % 16 → Completes (.skpVx x) s fun t =>
    t.pc = s.pc + (if s.keys[k] = true then 4 else 2) ∧ Frame [] [] s t) ∧
  (∀ (x : Reg) (s : State) (k : Key), k.val = (s.readV x).toNat % 16 → Completes (.sknpVx x) s fun t =>
    t.pc = s.pc + (if s.keys[k] = false then 4 else 2) ∧ Frame [] [] s t)

/-- 45_keypad_timers.md, FX0A: with no key pressed it blocks, changing WAIT only; with some key pressed it stores the index of a pressed one. Level sensitivity and the free choice are decision D14 (log 6). -/
def Obligations.WaitForKey : Prop :=
  (∀ (x : Reg) (s : State), (∀ k : Key, s.keys[k] = false) →
    exec (.ldVxK x) s = .next { s with wait := true, outcome := .blocked }) ∧
  (∀ (x : Reg) (s : State), (∃ k : Key, s.keys[k] = true) → Completes (.ldVxK x) s fun t =>
    (∃ k : Key, s.keys[k] = true ∧ (t.readV x).toNat = k.val) ∧ t.pc = s.pc + 2 ∧ Frame [.draws] [x] s t)

/-- 45_keypad_timers.md, FX07, FX15, FX18: FX07 copies DT into V[x]; FX15 and FX18 copy V[x] into DT and ST, so that sound_on is at once whether V[x] is above 0. -/
def Obligations.TimerTransfers : Prop :=
  (∀ (x : Reg) (s : State), Completes (.ldVxDt x) s fun t =>
    t.readV x = s.dt ∧ t.pc = s.pc + 2 ∧ Frame [] [x] s t) ∧
  (∀ (x : Reg) (s : State), Completes (.ldDtVx x) s fun t =>
    t.dt = s.readV x ∧ t.pc = s.pc + 2 ∧ Frame [.delay] [] s t) ∧
  (∀ (x : Reg) (s : State), Completes (.ldStVx x) s fun t =>
    t.st = s.readV x ∧ (t.soundOn = true ↔ 0 < (s.readV x).toNat) ∧ t.pc = s.pc + 2 ∧ Frame [.sound] [] s t)
end

