-- ==== Sys2Proof/Laws/State.lean ====
section
/-! SUPPORT. What each update of the state does to each field: one lemma per field per update, all by rfl or by induction over a block. -/

namespace Sys2Proof.Machine

section
variable (s : State) (r : Reg) (b : Byte) (a : Nat)

@[simp] theorem State.writeV_i : (s.writeV r b).i = s.i := rfl
@[simp] theorem State.writeV_pc : (s.writeV r b).pc = s.pc := rfl
@[simp] theorem State.writeV_dt : (s.writeV r b).dt = s.dt := rfl
@[simp] theorem State.writeV_st : (s.writeV r b).st = s.st := rfl
@[simp] theorem State.writeV_stack : (s.writeV r b).stack = s.stack := rfl
@[simp] theorem State.writeV_sp : (s.writeV r b).sp = s.sp := rfl
@[simp] theorem State.writeV_mem : (s.writeV r b).mem = s.mem := rfl
@[simp] theorem State.writeV_pix : (s.writeV r b).pix = s.pix := rfl
@[simp] theorem State.writeV_wait : (s.writeV r b).wait = s.wait := rfl
@[simp] theorem State.writeV_halt : (s.writeV r b).halt = s.halt := rfl
@[simp] theorem State.writeV_cause : (s.writeV r b).cause = s.cause := rfl
@[simp] theorem State.writeV_info : (s.writeV r b).info = s.info := rfl
@[simp] theorem State.writeV_keys : (s.writeV r b).keys = s.keys := rfl
@[simp] theorem State.writeV_outcome : (s.writeV r b).outcome = s.outcome := rfl
@[simp] theorem State.writeV_draws : (s.writeV r b).draws = s.draws := rfl
@[simp] theorem State.writeV_schedule : (s.writeV r b).schedule = s.schedule := rfl

@[simp] theorem State.writeMem_v : (s.writeMem a b).v = s.v := rfl
@[simp] theorem State.writeMem_i : (s.writeMem a b).i = s.i := rfl
@[simp] theorem State.writeMem_pc : (s.writeMem a b).pc = s.pc := rfl
@[simp] theorem State.writeMem_dt : (s.writeMem a b).dt = s.dt := rfl
@[simp] theorem State.writeMem_st : (s.writeMem a b).st = s.st := rfl
@[simp] theorem State.writeMem_stack : (s.writeMem a b).stack = s.stack := rfl
@[simp] theorem State.writeMem_sp : (s.writeMem a b).sp = s.sp := rfl
@[simp] theorem State.writeMem_pix : (s.writeMem a b).pix = s.pix := rfl
@[simp] theorem State.writeMem_wait : (s.writeMem a b).wait = s.wait := rfl
@[simp] theorem State.writeMem_halt : (s.writeMem a b).halt = s.halt := rfl
@[simp] theorem State.writeMem_cause : (s.writeMem a b).cause = s.cause := rfl
@[simp] theorem State.writeMem_info : (s.writeMem a b).info = s.info := rfl
@[simp] theorem State.writeMem_keys : (s.writeMem a b).keys = s.keys := rfl
@[simp] theorem State.writeMem_outcome : (s.writeMem a b).outcome = s.outcome := rfl
@[simp] theorem State.writeMem_draws : (s.writeMem a b).draws = s.draws := rfl
@[simp] theorem State.writeMem_schedule : (s.writeMem a b).schedule = s.schedule := rfl

end

section
variable (s : State)

@[simp] theorem State.writeBlock_v (base : Nat) (bs : List Byte) : (s.writeBlock base bs).v = s.v := by
  induction bs generalizing s base with
  | nil => rfl
  | cons b bs ih => exact ih _ _

@[simp] theorem State.writeBlock_i (base : Nat) (bs : List Byte) : (s.writeBlock base bs).i = s.i := by
  induction bs generalizing s base with
  | nil => rfl
  | cons b bs ih => exact ih _ _

@[simp] theorem State.writeBlock_pc (base : Nat) (bs : List Byte) : (s.writeBlock base bs).pc = s.pc := by
  induction bs generalizing s base with
  | nil => rfl
  | cons b bs ih => exact ih _ _

@[simp] theorem State.writeBlock_dt (base : Nat) (bs : List Byte) : (s.writeBlock base bs).dt = s.dt := by
  induction bs generalizing s base with
  | nil => rfl
  | cons b bs ih => exact ih _ _

@[simp] theorem State.writeBlock_st (base : Nat) (bs : List Byte) : (s.writeBlock base bs).st = s.st := by
  induction bs generalizing s base with
  | nil => rfl
  | cons b bs ih => exact ih _ _

@[simp] theorem State.writeBlock_stack (base : Nat) (bs : List Byte) : (s.writeBlock base bs).stack = s.stack := by
  induction bs generalizing s base with
  | nil => rfl
  | cons b bs ih => exact ih _ _

@[simp] theorem State.writeBlock_sp (base : Nat) (bs : List Byte) : (s.writeBlock base bs).sp = s.sp := by
  induction bs generalizing s base with
  | nil => rfl
  | cons b bs ih => exact ih _ _

@[simp] theorem State.writeBlock_pix (base : Nat) (bs : List Byte) : (s.writeBlock base bs).pix = s.pix := by
  induction bs generalizing s base with
  | nil => rfl
  | cons b bs ih => exact ih _ _

@[simp] theorem State.writeBlock_wait (base : Nat) (bs : List Byte) : (s.writeBlock base bs).wait = s.wait := by
  induction bs generalizing s base with
  | nil => rfl
  | cons b bs ih => exact ih _ _

@[simp] theorem State.writeBlock_halt (base : Nat) (bs : List Byte) : (s.writeBlock base bs).halt = s.halt := by
  induction bs generalizing s base with
  | nil => rfl
  | cons b bs ih => exact ih _ _

@[simp] theorem State.writeBlock_cause (base : Nat) (bs : List Byte) : (s.writeBlock base bs).cause = s.cause := by
  induction bs generalizing s base with
  | nil => rfl
  | cons b bs ih => exact ih _ _

@[simp] theorem State.writeBlock_info (base : Nat) (bs : List Byte) : (s.writeBlock base bs).info = s.info := by
  induction bs generalizing s base with
  | nil => rfl
  | cons b bs ih => exact ih _ _

@[simp] theorem State.writeBlock_keys (base : Nat) (bs : List Byte) : (s.writeBlock base bs).keys = s.keys := by
  induction bs generalizing s base with
  | nil => rfl
  | cons b bs ih => exact ih _ _

@[simp] theorem State.writeBlock_outcome (base : Nat) (bs : List Byte) : (s.writeBlock base bs).outcome = s.outcome := by
  induction bs generalizing s base with
  | nil => rfl
  | cons b bs ih => exact ih _ _

@[simp] theorem State.writeBlock_draws (base : Nat) (bs : List Byte) : (s.writeBlock base bs).draws = s.draws := by
  induction bs generalizing s base with
  | nil => rfl
  | cons b bs ih => exact ih _ _

@[simp] theorem State.writeBlock_schedule (base : Nat) (bs : List Byte) : (s.writeBlock base bs).schedule = s.schedule := by
  induction bs generalizing s base with
  | nil => rfl
  | cons b bs ih => exact ih _ _

@[simp] theorem State.writeRegsFrom_i (base : Nat) (bs : List Byte) : (s.writeRegsFrom base bs).i = s.i := by
  induction bs generalizing s base with
  | nil => rfl
  | cons b bs ih => exact ih _ _

@[simp] theorem State.writeRegsFrom_pc (base : Nat) (bs : List Byte) : (s.writeRegsFrom base bs).pc = s.pc := by
  induction bs generalizing s base with
  | nil => rfl
  | cons b bs ih => exact ih _ _

@[simp] theorem State.writeRegsFrom_dt (base : Nat) (bs : List Byte) : (s.writeRegsFrom base bs).dt = s.dt := by
  induction bs generalizing s base with
  | nil => rfl
  | cons b bs ih => exact ih _ _

@[simp] theorem State.writeRegsFrom_st (base : Nat) (bs : List Byte) : (s.writeRegsFrom base bs).st = s.st := by
  induction bs generalizing s base with
  | nil => rfl
  | cons b bs ih => exact ih _ _

@[simp] theorem State.writeRegsFrom_stack (base : Nat) (bs : List Byte) : (s.writeRegsFrom base bs).stack = s.stack := by
  induction bs generalizing s base with
  | nil => rfl
  | cons b bs ih => exact ih _ _

@[simp] theorem State.writeRegsFrom_sp (base : Nat) (bs : List Byte) : (s.writeRegsFrom base bs).sp = s.sp := by
  induction bs generalizing s base with
  | nil => rfl
  | cons b bs ih => exact ih _ _

@[simp] theorem State.writeRegsFrom_mem (base : Nat) (bs : List Byte) : (s.writeRegsFrom base bs).mem = s.mem := by
  induction bs generalizing s base with
  | nil => rfl
  | cons b bs ih => exact ih _ _

@[simp] theorem State.writeRegsFrom_pix (base : Nat) (bs : List Byte) : (s.writeRegsFrom base bs).pix = s.pix := by
  induction bs generalizing s base with
  | nil => rfl
  | cons b bs ih => exact ih _ _

@[simp] theorem State.writeRegsFrom_wait (base : Nat) (bs : List Byte) : (s.writeRegsFrom base bs).wait = s.wait := by
  induction bs generalizing s base with
  | nil => rfl
  | cons b bs ih => exact ih _ _

@[simp] theorem State.writeRegsFrom_halt (base : Nat) (bs : List Byte) : (s.writeRegsFrom base bs).halt = s.halt := by
  induction bs generalizing s base with
  | nil => rfl
  | cons b bs ih => exact ih _ _

@[simp] theorem State.writeRegsFrom_cause (base : Nat) (bs : List Byte) : (s.writeRegsFrom base bs).cause = s.cause := by
  induction bs generalizing s base with
  | nil => rfl
  | cons b bs ih => exact ih _ _

@[simp] theorem State.writeRegsFrom_info (base : Nat) (bs : List Byte) : (s.writeRegsFrom base bs).info = s.info := by
  induction bs generalizing s base with
  | nil => rfl
  | cons b bs ih => exact ih _ _

@[simp] theorem State.writeRegsFrom_keys (base : Nat) (bs : List Byte) : (s.writeRegsFrom base bs).keys = s.keys := by
  induction bs generalizing s base with
  | nil => rfl
  | cons b bs ih => exact ih _ _

@[simp] theorem State.writeRegsFrom_outcome (base : Nat) (bs : List Byte) : (s.writeRegsFrom base bs).outcome = s.outcome := by
  induction bs generalizing s base with
  | nil => rfl
  | cons b bs ih => exact ih _ _

@[simp] theorem State.writeRegsFrom_draws (base : Nat) (bs : List Byte) : (s.writeRegsFrom base bs).draws = s.draws := by
  induction bs generalizing s base with
  | nil => rfl
  | cons b bs ih => exact ih _ _

@[simp] theorem State.writeRegsFrom_schedule (base : Nat) (bs : List Byte) : (s.writeRegsFrom base bs).schedule = s.schedule := by
  induction bs generalizing s base with
  | nil => rfl
  | cons b bs ih => exact ih _ _

/-- A block write is a write of memory only. -/
theorem State.writeBlock_eq (base : Nat) (bs : List Byte) : s.writeBlock base bs = { s with mem := (s.writeBlock base bs).mem } := by
  induction bs generalizing s base with
  | nil => rfl
  | cons b bs ih => rw [State.writeBlock, ih]; rfl

/-- A block write of registers is a write of V only. -/
theorem State.writeRegsFrom_eq (base : Nat) (bs : List Byte) : s.writeRegsFrom base bs = { s with v := (s.writeRegsFrom base bs).v } := by
  induction bs generalizing s base with
  | nil => rfl
  | cons b bs ih => rw [State.writeRegsFrom, ih]; rfl

/-- What a block write leaves in memory depends on memory only. -/
theorem State.writeBlock_mem_congr {s t : State} (h : t.mem = s.mem) (base : Nat) (bs : List Byte) :
    (t.writeBlock base bs).mem = (s.writeBlock base bs).mem := by
  induction bs generalizing s t base with
  | nil => exact h
  | cons b bs ih => exact ih (by simp [State.writeMem, h]) _

/-- What a block write of registers leaves in V depends on V only. -/
theorem State.writeRegsFrom_v_congr {s t : State} (h : t.v = s.v) (base : Nat) (bs : List Byte) :
    (t.writeRegsFrom base bs).v = (s.writeRegsFrom base bs).v := by
  induction bs generalizing s t base with
  | nil => exact h
  | cons b bs ih => exact ih (by simp [State.writeV, h]) _

@[simp] theorem State.tick_v : s.tick.v = s.v := by unfold State.tick; split <;> rfl
@[simp] theorem State.tick_i : s.tick.i = s.i := by unfold State.tick; split <;> rfl
@[simp] theorem State.tick_pc : s.tick.pc = s.pc := by unfold State.tick; split <;> rfl
@[simp] theorem State.tick_stack : s.tick.stack = s.stack := by unfold State.tick; split <;> rfl
@[simp] theorem State.tick_sp : s.tick.sp = s.sp := by unfold State.tick; split <;> rfl
@[simp] theorem State.tick_mem : s.tick.mem = s.mem := by unfold State.tick; split <;> rfl
@[simp] theorem State.tick_pix : s.tick.pix = s.pix := by unfold State.tick; split <;> rfl
@[simp] theorem State.tick_wait : s.tick.wait = s.wait := by unfold State.tick; split <;> rfl
@[simp] theorem State.tick_halt : s.tick.halt = s.halt := by unfold State.tick; split <;> rfl
@[simp] theorem State.tick_cause : s.tick.cause = s.cause := by unfold State.tick; split <;> rfl
@[simp] theorem State.tick_info : s.tick.info = s.info := by unfold State.tick; split <;> rfl
@[simp] theorem State.tick_keys : s.tick.keys = s.keys := by unfold State.tick; split <;> rfl
@[simp] theorem State.tick_outcome : s.tick.outcome = s.outcome := by unfold State.tick; split <;> rfl
@[simp] theorem State.tick_draws : s.tick.draws = s.draws := by unfold State.tick; split <;> rfl
@[simp] theorem State.tick_schedule : s.tick.schedule = s.schedule := by unfold State.tick; split <;> rfl

@[simp] theorem State.setKeys_v (k : Vector Bool 16) : (s.setKeys k).v = s.v := rfl
@[simp] theorem State.setKeys_i (k : Vector Bool 16) : (s.setKeys k).i = s.i := rfl
@[simp] theorem State.setKeys_pc (k : Vector Bool 16) : (s.setKeys k).pc = s.pc := rfl
@[simp] theorem State.setKeys_dt (k : Vector Bool 16) : (s.setKeys k).dt = s.dt := rfl
@[simp] theorem State.setKeys_st (k : Vector Bool 16) : (s.setKeys k).st = s.st := rfl
@[simp] theorem State.setKeys_stack (k : Vector Bool 16) : (s.setKeys k).stack = s.stack := rfl
@[simp] theorem State.setKeys_sp (k : Vector Bool 16) : (s.setKeys k).sp = s.sp := rfl
@[simp] theorem State.setKeys_mem (k : Vector Bool 16) : (s.setKeys k).mem = s.mem := rfl
@[simp] theorem State.setKeys_pix (k : Vector Bool 16) : (s.setKeys k).pix = s.pix := rfl
@[simp] theorem State.setKeys_wait (k : Vector Bool 16) : (s.setKeys k).wait = s.wait := rfl
@[simp] theorem State.setKeys_halt (k : Vector Bool 16) : (s.setKeys k).halt = s.halt := rfl
@[simp] theorem State.setKeys_cause (k : Vector Bool 16) : (s.setKeys k).cause = s.cause := rfl
@[simp] theorem State.setKeys_info (k : Vector Bool 16) : (s.setKeys k).info = s.info := rfl
@[simp] theorem State.setKeys_outcome (k : Vector Bool 16) : (s.setKeys k).outcome = s.outcome := rfl
@[simp] theorem State.setKeys_draws (k : Vector Bool 16) : (s.setKeys k).draws = s.draws := rfl
@[simp] theorem State.setKeys_schedule (k : Vector Bool 16) : (s.setKeys k).schedule = s.schedule := rfl
@[simp] theorem State.setKeys_keys (k : Vector Bool 16) : (s.setKeys k).keys = k := rfl

end

end Sys2Proof.Machine
end

