-- ==== Sys2Proof/Laws/Memory.lean ====
section
/-! SUPPORT. Laws of memory (spec/20_memory.md R62): read after write, the canonical form, and blocks of bytes. -/

namespace Sys2Proof.Machine

/-! ## One byte -/

theorem Memory.read_insert_same (m : Memory) (a : Nat) (v : Byte) : (Memory.insert a v m).read a = v := by
  induction m with
  | nil => simp [Memory.insert, Memory.read]
  | cons c m ih =>
    obtain ⟨b, w⟩ := c
    by_cases h1 : a < b
    · simp [Memory.insert, Memory.read, h1]
    · by_cases h2 : a = b
      · simp [Memory.insert, Memory.read, h2]
      · simp [Memory.insert, Memory.read, h1, h2, Ne.symm h2, ih]

theorem Memory.read_insert_other (m : Memory) {a a' : Nat} (v : Byte) (h : a' ≠ a) :
    (Memory.insert a v m).read a' = m.read a' := by
  induction m with
  | nil => simp [Memory.insert, Memory.read, h.symm]
  | cons c m ih =>
    obtain ⟨b, w⟩ := c
    by_cases h1 : a < b
    · simp [Memory.insert, Memory.read, h1, h.symm]
    · by_cases h2 : a = b
      · subst h2; simp [Memory.insert, Memory.read, h.symm]
      · simp [Memory.insert, Memory.read, h1, h2, ih]

theorem Memory.read_erase_same (m : Memory) (a : Nat) : (m.erase a).read a = Memory.unlisted a := by
  induction m with
  | nil => rfl
  | cons c m ih =>
    obtain ⟨b, w⟩ := c
    by_cases h : b = a
    · subst h; simpa [Memory.erase] using ih
    · simpa [Memory.erase, Memory.read, h] using ih

theorem Memory.read_erase_other (m : Memory) {a a' : Nat} (h : a' ≠ a) : (m.erase a).read a' = m.read a' := by
  induction m with
  | nil => rfl
  | cons c m ih =>
    obtain ⟨b, w⟩ := c
    by_cases hb : b = a
    · subst hb; simpa [Memory.erase, Memory.read, h.symm] using ih
    · have hc : Memory.erase ((b, w) :: m) a = (b, w) :: Memory.erase m a := by simp [Memory.erase, hb]
      rw [hc, Memory.read, Memory.read, ih]

@[simp] theorem Memory.read_write_same (m : Memory) (a : Nat) (v : Byte) : (m.write a v).read a = v := by
  unfold Memory.write
  split
  · rw [Memory.read_erase_same]; simp_all
  · exact Memory.read_insert_same m a v

theorem Memory.read_write_other (m : Memory) {a a' : Nat} (v : Byte) (h : a' ≠ a) :
    (m.write a v).read a' = m.read a' := by
  unfold Memory.write
  split
  · exact Memory.read_erase_other m h
  · exact Memory.read_insert_other m v h

/-! ## The canonical form -/

theorem Memory.wf_iff (m : Memory) : m.wf = true ↔
    m.Pairwise (fun c d => c.1 < d.1) ∧ ∀ c ∈ m, c.1 < 4096 ∧ c.2 ≠ Memory.unlisted c.1 := by
  simp [Memory.wf, Config.memSize]

theorem Memory.mem_insert {m : Memory} {a : Nat} {v : Byte} {c : Host.Cell} (h : c ∈ Memory.insert a v m) :
    c = (a, v) ∨ c ∈ m := by
  induction m with
  | nil => simpa [Memory.insert] using h
  | cons d m ih =>
    obtain ⟨b, w⟩ := d
    unfold Memory.insert at h
    split at h
    · simpa using h
    · split at h
      · rcases List.mem_cons.1 h with h | h
        · exact .inl h
        · exact .inr (List.mem_cons_of_mem _ h)
      · rcases List.mem_cons.1 h with h | h
        · exact .inr (by simp [h])
        · rcases ih h with h | h
          · exact .inl h
          · exact .inr (List.mem_cons_of_mem _ h)

theorem Memory.pairwise_insert {m : Memory} (a : Nat) (v : Byte) (h : m.Pairwise fun c d => c.1 < d.1) :
    (Memory.insert a v m).Pairwise fun c d => c.1 < d.1 := by
  induction m with
  | nil => simp [Memory.insert]
  | cons d m ih =>
    obtain ⟨b, w⟩ := d
    obtain ⟨hb, hm⟩ := List.pairwise_cons.1 h
    unfold Memory.insert
    split
    · rename_i hab
      refine List.pairwise_cons.2 ⟨fun c hc => ?_, h⟩
      rcases List.mem_cons.1 hc with rfl | hc
      · exact hab
      · exact Nat.lt_trans hab (hb c hc)
    · split
      · rename_i hab; subst hab
        exact List.pairwise_cons.2 ⟨hb, hm⟩
      · rename_i h1 h2
        refine List.pairwise_cons.2 ⟨fun c hc => ?_, ih hm⟩
        rcases Memory.mem_insert hc with rfl | hc
        · simp only; omega
        · exact hb c hc

/-- Every write keeps the canonical form. -/
theorem Memory.wf_write {m : Memory} {a : Nat} (v : Byte) (h : m.wf = true) (ha : a < 4096) :
    (m.write a v).wf = true := by
  rw [Memory.wf_iff] at h ⊢
  unfold Memory.write
  split
  · exact ⟨h.1.sublist List.filter_sublist, fun c hc => h.2 c (List.mem_of_mem_filter hc)⟩
  · rename_i hv
    refine ⟨Memory.pairwise_insert a v h.1, fun c hc => ?_⟩
    rcases Memory.mem_insert hc with rfl | hc
    · exact ⟨ha, hv⟩
    · exact h.2 c hc

/-! ## Accessors of the state -/

@[simp] theorem State.readMem_writeMem_same (s : State) (a : Nat) (v : Byte) : (s.writeMem a v).readMem a = v :=
  Memory.read_write_same _ _ _

theorem State.readMem_writeMem_other (s : State) {a a' : Nat} (v : Byte) (h : a' ≠ a) :
    (s.writeMem a v).readMem a' = s.readMem a' :=
  Memory.read_write_other _ _ h

theorem State.readMem_congr {s t : State} (h : t.mem = s.mem) (a : Nat) : t.readMem a = s.readMem a := by
  simp [State.readMem, h]

/-- A block write leaves every address outside the block alone. -/
theorem State.readMem_writeBlock_outside (s : State) (base : Nat) (bs : List Byte) {a : Nat}
    (h : ¬ (base ≤ a ∧ a < base + bs.length)) : (s.writeBlock base bs).readMem a = s.readMem a := by
  induction bs generalizing s base with
  | nil => rfl
  | cons b bs ih =>
    simp only [List.length_cons] at h
    rw [State.writeBlock, ih _ _ (by omega), State.readMem_writeMem_other]
    omega

/-- A block write stores byte k of the list at base + k. -/
theorem State.readMem_writeBlock_inside (s : State) (base : Nat) (bs : List Byte) (k : Nat) (h : k < bs.length) :
    (s.writeBlock base bs).readMem (base + k) = bs[k] := by
  induction bs generalizing s base k with
  | nil => simp at h
  | cons b bs ih =>
    rw [State.writeBlock]
    cases k with
    | zero =>
      rw [State.readMem_writeBlock_outside _ _ _ (by omega)]
      simp
    | succ k =>
      have := ih (s.writeMem base b) (base + 1) k (by simpa using h)
      rw [show base + (k + 1) = base + 1 + k by omega, this]
      rfl

/-- A block write inside memory keeps the canonical form. -/
theorem State.wf_writeBlock (s : State) (base : Nat) (bs : List Byte) (h : s.mem.wf = true)
    (hb : base + bs.length ≤ 4096 ∨ bs = []) : (s.writeBlock base bs).mem.wf = true := by
  induction bs generalizing s base with
  | nil => exact h
  | cons b bs ih =>
    simp only [List.length_cons] at hb
    refine ih _ _ (Memory.wf_write b h ?_) ?_ <;> simp_all <;> omega

@[simp] theorem State.length_readBlock (s : State) (base n : Nat) : (s.readBlock base n).length = n := by
  induction n generalizing base with
  | zero => rfl
  | succ n ih => simp [State.readBlock, ih]

theorem State.getElem_readBlock (s : State) (base n k : Nat) (h : k < (s.readBlock base n).length) :
    (s.readBlock base n)[k] = s.readMem (base + k) := by
  induction n generalizing base k with
  | zero => simp [State.readBlock] at h
  | succ n ih =>
    cases k with
    | zero => rfl
    | succ k =>
      have := ih (base + 1) k (by simpa [State.readBlock] using h)
      simpa [State.readBlock, Nat.add_comm, Nat.add_left_comm] using this

theorem State.readBlock_congr {s t : State} (h : t.mem = s.mem) (base n : Nat) :
    t.readBlock base n = s.readBlock base n := by
  induction n generalizing base with
  | zero => rfl
  | succ n ih => simp [State.readBlock, ih, State.readMem_congr h]

/-- What being in range says (R66). -/
theorem blockInRange_iff (base n : Nat) : blockInRange base n = true ↔ n = 0 ∨ base + n ≤ 4096 := by
  simp [blockInRange, Config.memSize]

end Sys2Proof.Machine
end

