-- ==== Sys2Proof/Laws/Registers.lean ====
section
/-! SUPPORT. Laws of the registers V (spec/10_state.md R21, R23): read after write, blocks of registers, flag and result. -/

namespace Sys2Proof.Machine

@[simp] theorem State.readV_writeV_same (s : State) (r : Reg) (b : Byte) : (s.writeV r b).readV r = b := by
  simp [State.readV, State.writeV]

theorem State.readV_writeV_other (s : State) {r r' : Reg} (b : Byte) (h : r' ≠ r) :
    (s.writeV r b).readV r' = s.readV r' := by
  have : r.val ≠ r'.val := fun e => h (Fin.ext e.symm)
  simp [State.readV, State.writeV, this]

theorem State.readV_congr {s t : State} (h : t.v = s.v) (r : Reg) : t.readV r = s.readV r := by
  simp [State.readV, h]

@[simp] theorem State.length_readRegsTo (s : State) (x : Reg) : (s.readRegsTo x).length = x.val + 1 := by
  have := x.isLt
  simp only [State.readRegsTo, List.length_take, Vector.length_toList]
  omega

theorem State.getElem_readRegsTo (s : State) (x : Reg) (k : Nat) (h : k < (s.readRegsTo x).length) :
    (s.readRegsTo x)[k] = s.readV ⟨k, by simp at h; omega⟩ := by
  simp [State.readRegsTo, State.readV]

/-- Registers below and above the block written keep their value. -/
theorem State.readV_writeRegsFrom_outside (s : State) (k : Nat) (bs : List Byte) (hk : k + bs.length ≤ 16) {r : Reg}
    (h : ¬ (k ≤ r.val ∧ r.val < k + bs.length)) : (s.writeRegsFrom k bs).readV r = s.readV r := by
  induction bs generalizing s k with
  | nil => rfl
  | cons b bs ih =>
    simp only [List.length_cons] at h hk
    rw [State.writeRegsFrom, ih _ _ (by omega) (by omega), State.readV_writeV_other]
    rintro rfl
    simp only [Fin.ofNat, Nat.mod_eq_of_lt (show k < 16 by omega)] at h
    omega

/-- Register k + j of the block written holds byte j of the list. -/
theorem State.readV_writeRegsFrom_inside (s : State) (k : Nat) (bs : List Byte) (hk : k + bs.length ≤ 16) (r : Reg)
    (h1 : k ≤ r.val) (h2 : r.val - k < bs.length) : (s.writeRegsFrom k bs).readV r = bs[r.val - k] := by
  induction bs generalizing s k with
  | nil => simp at h2
  | cons b bs ih =>
    simp only [List.length_cons] at h2 hk
    rw [State.writeRegsFrom]
    by_cases hr : r.val = k
    · rw [State.readV_writeRegsFrom_outside _ _ _ (by omega) (by omega)]
      have : (Fin.ofNat 16 k) = r := Fin.ext (by simp [Fin.ofNat]; omega)
      rw [this]
      simp [hr]
    · rw [ih _ _ (by omega) (by omega) (by omega)]
      simp [show r.val - k = (r.val - (k + 1)) + 1 by omega]

/-- The result is written last, so it stands whatever x is (R23). -/
@[simp] theorem State.readV_writeFlagThenResult_result (s : State) (x : Reg) (flag result : Byte) :
    (s.writeFlagThenResult x flag result).readV x = result := by
  simp [State.writeFlagThenResult]

/-- The flag stands unless the result is written to VF (R23). -/
theorem State.readV_writeFlagThenResult_flag (s : State) {x : Reg} (flag result : Byte) (h : x ≠ regF) :
    (s.writeFlagThenResult x flag result).readV regF = flag := by
  rw [State.writeFlagThenResult, State.readV_writeV_other _ _ h.symm, State.readV_writeV_same]

theorem State.readV_writeFlagThenResult_other (s : State) {x r : Reg} (flag result : Byte) (h1 : r ≠ x) (h2 : r ≠ regF) :
    (s.writeFlagThenResult x flag result).readV r = s.readV r := by
  rw [State.writeFlagThenResult, State.readV_writeV_other _ _ h1, State.readV_writeV_other _ _ h2]

theorem flagByte_eq_one_iff (b : Bool) : flagByte b = 1 ↔ b = true := by cases b <;> decide

theorem flagByte_eq_zero_iff (b : Bool) : flagByte b = 0 ↔ b = false := by cases b <;> decide

end Sys2Proof.Machine
end

