-- ==== Sys2Proof/Laws/Ops.lean ====
section
/-! SUPPORT. What each shared operation can answer, said once: the ends of an instruction, the stack, the operands, and the delivery of host events. -/

namespace Sys2Proof.Machine

/-! ## Ends of an instruction -/

theorem State.finishAt_eq (s : State) (a : Word) :
    s.finishAt a = .next { s with pc := a, wait := false, outcome := .continued } := rfl

theorem State.finish_eq (s : State) :
    s.finish = .next { s with pc := s.pc + 2, wait := false, outcome := .continued } := rfl

theorem State.skipIf_eq (s : State) (c : Bool) :
    s.skipIf c = .next { s with pc := if c then s.pc + 4 else s.pc + 2, wait := false, outcome := .continued } := by
  have : s.pc + 2 + 2 = s.pc + 4 := by rw [BitVec.add_assoc]; rfl
  cases c
  · rfl
  · unfold State.skipIf State.finishAt State.npc
    rw [this]

theorem State.raise_eq (s : State) (c : Cause) (n : Word) :
    s.raise c n = .next { s with halt := true, cause := c, info := n, outcome := .fatal c n } := rfl

/-! ## Stack -/

theorem State.callTo_of_lt (s : State) (a : Word) (h : s.sp.val < 16) :
    s.callTo a = .next { s with
      stack := s.stack.set s.sp.val (s.pc + 2) h, sp := ⟨s.sp.val + 1, by omega⟩, pc := a, wait := false, outcome := .continued } := by
  simp [State.callTo, h, State.finishAt, State.npc]

theorem State.callTo_full (s : State) (a : Word) (h : s.sp.val = 16) : s.callTo a = s.raise .stackOverflow s.pc := by
  simp [State.callTo, h]

theorem State.popReturn_of_pos (s : State) (h : 0 < s.sp.val) :
    s.popReturn = .next { s with
      sp := ⟨s.sp.val - 1, by omega⟩, pc := s.stack[s.sp.val - 1]'(by omega), wait := false, outcome := .continued } := by
  have h0 : s.sp.val ≠ 0 := by omega
  simp only [State.popReturn, h0, dite_false, State.finishAt]

theorem State.popReturn_empty (s : State) (h : s.sp.val = 0) : s.popReturn = s.raise .stackUnderflow s.pc := by
  simp [State.popReturn, h]

/-! ## Operands -/

@[simp] theorem toNat_zext16 (nnn : Addr12) : (zext16 nnn).toNat = nnn.toNat := by
  have := nnn.isLt
  simp [zext16]; omega

theorem toNat_indexPlus (i : Word) (k : Nat) : (indexPlus i k).toNat = (i.toNat + k) % 4096 := by
  simp [indexPlus]; omega

theorem fontBase_le : Config.fontBase + 80 ≤ 0x200 := by
  have := Config.fontOffset.isLt
  unfold Config.fontBase; omega

theorem digitIndex_eq_mod (b : Byte) : digitIndex b = b.toNat % 16 := by
  revert b; decide

theorem val_keyIndex (b : Byte) : (keyIndex b).val = b.toNat % 16 := by
  revert b; decide

theorem toNat_glyphAddress (b : Byte) : (glyphAddress b).toNat = Config.fontBase + 5 * (b.toNat % 16) := by
  have := fontBase_le
  simp [glyphAddress, digitIndex_eq_mod]; omega

theorem State.mem_pressedKeys (s : State) (k : Key) : k ∈ s.pressedKeys ↔ s.keys[k] = true := by
  simp [State.pressedKeys, State.keyPressed, List.mem_filter]

/-- Whatever the free choice is, the key chosen is one of those given. -/
theorem chooseKey_mem (n : Nat) (ks : List Key) (h : ks ≠ []) : chooseKey n ks ∈ ks := by
  match ks, h with
  | [k], _ => simp [chooseKey]
  | k :: l :: ks, _ =>
    have hlt : Config.keyChoice n % (k :: l :: ks).length < (k :: l :: ks).length := Nat.mod_lt _ (by simp)
    simp only [chooseKey, List.getD_eq_getElem _ _ hlt]
    exact List.getElem_mem hlt

/-! ## Delivery of host events -/

/-- Host events change no machine state but the key levels and the timers. -/
theorem HostEvent.apply_same (s : State) (e : HostEvent) :
    HostEvent.apply s e = { s with keys := (HostEvent.apply s e).keys, dt := (HostEvent.apply s e).dt, st := (HostEvent.apply s e).st } := by
  cases e with
  | tick => simp only [HostEvent.apply, State.tick]; split <;> rfl
  | keys k => rfl

theorem foldl_apply_same (events : List HostEvent) (s : State) :
    ∃ k d e, events.foldl HostEvent.apply s = { s with keys := k, dt := d, st := e } := by
  induction events generalizing s with
  | nil => exact ⟨s.keys, s.dt, s.st, rfl⟩
  | cons ev evs ih =>
    obtain ⟨k, d, e, h⟩ := ih (HostEvent.apply s ev)
    exact ⟨k, d, e, by rw [List.foldl_cons, h, HostEvent.apply_same]⟩

end Sys2Proof.Machine
end

