-- ==== Sys2Proof/Laws/Cycle.lean ====
section
/-! SUPPORT. What the event `step` can do, said once (spec/40_step_cycle.md R120), and what one event after another does. -/

namespace Sys2Proof.Machine

/-- Decoding the two bytes at PC is decoding the word at PC. -/
theorem State.decode_fetchBytes (s : State) :
    decode s.fetchBytes = (decodeWord s.fetchWord).map fun i => (i, []) := by
  rw [State.fetchBytes, decode, ← State.fetchWord]
  cases decodeWord s.fetchWord <;> rfl

/-- The four ways of a step, in the order of the checks (R247). -/
theorem coreStep_cases (s : State) :
    (s.halt = true ∧ coreStep s = s.haltedStep) ∨
    (s.halt = false ∧ 4094 < s.pc.toNat ∧ coreStep s = s.raise .memRangeFetch s.pc) ∨
    (s.halt = false ∧ s.pc.toNat ≤ 4094 ∧ ∃ e, decodeWord s.fetchWord = .error e ∧ coreStep s = s.undefinedNoop s.fetchWord) ∨
    (s.halt = false ∧ s.pc.toNat ≤ 4094 ∧ ∃ i, decodeWord s.fetchWord = .ok i ∧ coreStep s = exec i s) := by
  unfold coreStep
  cases h : s.halt
  · by_cases hr : s.pc.toNat ≤ 4094
    · have hin : s.fetchInRange = true := by simpa [State.fetchInRange] using hr
      rw [State.decode_fetchBytes]
      cases hd : decodeWord s.fetchWord with
      | error e => exact .inr (.inr (.inl ⟨rfl, hr, e, rfl, by simp [hin, Except.map]⟩))
      | ok i => exact .inr (.inr (.inr ⟨rfl, hr, i, rfl, by simp [hin, Except.map]⟩))
    · have hin : s.fetchInRange = false := by simpa [State.fetchInRange] using hr
      exact .inr (.inl ⟨rfl, by omega, by simp [hin]⟩)
  · exact .inl ⟨rfl, by simp⟩

/-- Events one after another. -/
theorem runEvents_append (es fs : List Event) (s : State) : runEvents (es ++ fs) s =
    match runEvents es s with
    | .next t => runEvents fs t
    | .fault r => .fault r
    | .refused r => .refused r := by
  induction es generalizing s with
  | nil => rfl
  | cons e es ih =>
    simp only [List.cons_append, runEvents]
    cases e.apply s <;> simp [ih]

end Sys2Proof.Machine
end

