-- ==== Sys2Proof/Laws/Screen.lean ====
section
/-! SUPPORT. What drawing does to each pixel (spec/44_display.md R191 to R193). -/

namespace Sys2Proof.Machine

/-- Bit c of a sprite byte, counted from the left, stands at column x0 + c; the rest of the row is 0. -/
theorem getMsbD_spriteRow (x0 : Nat) (b : Byte) (px : Nat) (hpx : px < 64) :
    (spriteRow x0 b).getMsbD px = (decide (x0 ≤ px ∧ px < x0 + 8) && b.getLsbD (7 - (px - x0))) := by
  unfold spriteRow
  rw [BitVec.getMsbD_ushiftRight]
  by_cases h : px < x0
  · simp [h]
  · obtain ⟨c, rfl⟩ : ∃ c, px = x0 + c := ⟨px - x0, by omega⟩
    rw [Nat.add_sub_cancel_left, BitVec.getMsbD_eq_getLsbD, BitVec.getLsbD_shiftLeft, BitVec.getLsbD_setWidth]
    by_cases h8 : c < 8
    · rw [show 64 - 1 - c - 56 = 7 - c by omega]
      simp [hpx, h8, show c < 64 by omega, show ¬ 63 - c < 56 by omega, show 63 - c < 64 by omega, show 7 - c < 64 by omega]
    · simp [h8, show 63 - c < 56 by omega]

/-- Each pixel after drawing: toggled where the sprite row there has a set bit. -/
theorem pixel_drawRows (x0 y : Nat) (bs : List Byte) (p : Screen) (coll : Bool) (px : Fin 64) (py : Fin 32) :
    (drawRows x0 y bs p coll).1.pixel px py =
      (p.pixel px py ^^ (decide (y ≤ py.val ∧ py.val < y + bs.length) && (spriteRow x0 (bs.getD (py.val - y) 0)).getMsbD px)) := by
  induction bs generalizing y p coll with
  | nil => simp [drawRows, show ¬ (y ≤ py.val ∧ py.val < y) by omega]
  | cons b bs ih =>
    rw [drawRows]
    split
    · rename_i h
      rw [ih]
      by_cases hy : py.val = y
      · subst hy
        simp [Screen.pixel]
      · have e : Screen.pixel (p.set y (p[y] ^^^ spriteRow x0 b)) px py = p.pixel px py := by
          simp [Screen.pixel, Ne.symm hy]
        rw [e]
        by_cases hlt : y + 1 ≤ py.val
        · have : py.val - y = (py.val - (y + 1)) + 1 := by omega
          simp [this, hlt, show y ≤ py.val by omega, Nat.add_assoc, Nat.add_comm 1]
        · simp [hlt, show ¬ y ≤ py.val by omega]
    · rename_i h
      have := py.isLt
      rw [ih]
      simp [show ¬ y + 1 ≤ py.val by omega, show ¬ y ≤ py.val by omega]

/-- A row of pixels and a mask share a set bit exactly when some column has both. -/
theorem and_ne_zero_iff (r m : BitVec 64) : ((r &&& m) != 0) = true ↔ ∃ c : Fin 64, r.getMsbD c = true ∧ m.getMsbD c = true := by
  rw [bne_iff_ne, ne_eq, ← not_iff_not, not_not]
  constructor
  · rintro h ⟨c, h1, h2⟩
    have : (r &&& m).getMsbD c = false := by rw [h]; simp
    simp [BitVec.getMsbD_and, h1, h2] at this
  · intro h
    apply BitVec.eq_of_getMsbD_eq
    intro i hi
    by_contra hc
    refine h ⟨⟨i, hi⟩, ?_⟩
    simpa [BitVec.getMsbD_and] using hc

/-- A collision is found exactly when some pixel that was set meets a set sprite bit. -/
theorem collision_drawRows (x0 y : Nat) (bs : List Byte) (p : Screen) (coll : Bool) :
    (drawRows x0 y bs p coll).2 = true ↔ coll = true ∨ ∃ (px : Fin 64) (py : Fin 32), p.pixel px py = true ∧
      (y ≤ py.val ∧ py.val < y + bs.length) ∧ (spriteRow x0 (bs.getD (py.val - y) 0)).getMsbD px = true := by
  induction bs generalizing y p coll with
  | nil => simp [drawRows]
  | cons b bs ih =>
    rw [drawRows]
    split
    · rename_i h
      rw [ih, Bool.or_eq_true, and_ne_zero_iff]
      constructor
      · rintro ((hc | ⟨c, h1, h2⟩) | ⟨px, py, h1, h2, h3⟩)
        · exact .inl hc
        · exact .inr ⟨c, ⟨y, h⟩, h1, by simp, by simpa using h2⟩
        · refine .inr ⟨px, py, ?_, by simp only [List.length_cons]; omega, ?_⟩
          · have hy : y ≠ py.val := by omega
            simpa [Screen.pixel, hy] using h1
          · rwa [show py.val - y = (py.val - (y + 1)) + 1 by omega, List.getD_cons_succ]
      · rintro (hc | ⟨px, py, h1, h2, h3⟩)
        · exact .inl (.inl hc)
        · by_cases hy : py.val = y
          · subst hy
            exact .inl (.inr ⟨px, h1, by simpa using h3⟩)
          · refine .inr ⟨px, py, ?_, by simp only [List.length_cons] at h2; omega, ?_⟩
            · simpa [Screen.pixel, Ne.symm hy] using h1
            · rwa [show py.val - y = (py.val - (y + 1)) + 1 by omega, List.getD_cons_succ] at h3
    · rename_i h
      rw [ih]
      constructor
      · rintro (hc | ⟨px, py, h1, h2, h3⟩)
        · exact .inl hc
        · have := py.isLt; omega
      · rintro (hc | ⟨px, py, h1, h2, h3⟩)
        · exact .inl hc
        · have := py.isLt; omega

end Sys2Proof.Machine
end

