-- ==== Sys2Proof/Laws/Exec.lean ====
section
/-! SUPPORT. The meanings of more than one path, each path said once, and what holds of every instruction and of every step. -/

namespace Sys2Proof.Machine

/-! ## The paths of the meanings that have several -/

/-- FX33 stores its digits where they fit, and raises otherwise (R183). -/
theorem execLdBVx_cases (x : Reg) (s : State) :
    (s.i.toNat + 3 ≤ 4096 ∧ execLdBVx x s = .next { s with
      mem := (s.writeBlock s.i.toNat (bcdDigits (s.readV x))).mem, pc := s.pc + 2, wait := false, outcome := .continued }) ∨
    (4096 < s.i.toNat + 3 ∧ execLdBVx x s = s.raiseData) := by
  unfold execLdBVx
  split <;> rename_i h <;> rw [blockInRange_iff] at h
  · exact .inl ⟨by omega, by rw [State.writeBlock_eq]; rfl⟩
  · exact .inr ⟨by omega, rfl⟩

/-- FX55 stores its registers where they fit, and raises otherwise (R184). -/
theorem execLdMemVx_cases (x : Reg) (s : State) :
    (s.i.toNat + (x.val + 1) ≤ 4096 ∧ execLdMemVx x s = .next { s with
      mem := (s.writeBlock s.i.toNat (s.readRegsTo x)).mem, i := indexPlus s.i (x.val + 1),
      pc := s.pc + 2, wait := false, outcome := .continued }) ∨
    (4096 < s.i.toNat + (x.val + 1) ∧ execLdMemVx x s = s.raiseData) := by
  unfold execLdMemVx
  split <;> rename_i h <;> rw [blockInRange_iff] at h
  · exact .inl ⟨by omega, by rw [State.writeBlock_eq]; rfl⟩
  · exact .inr ⟨by omega, rfl⟩

/-- FX65 loads its registers where the bytes exist, and raises otherwise (R185). -/
theorem execLdVxMem_cases (x : Reg) (s : State) :
    (s.i.toNat + (x.val + 1) ≤ 4096 ∧ execLdVxMem x s = .next { s with
      v := (s.writeRegsFrom 0 (s.readBlock s.i.toNat (x.val + 1))).v, i := indexPlus s.i (x.val + 1),
      pc := s.pc + 2, wait := false, outcome := .continued }) ∨
    (4096 < s.i.toNat + (x.val + 1) ∧ execLdVxMem x s = s.raiseData) := by
  unfold execLdVxMem
  split <;> rename_i h <;> rw [blockInRange_iff] at h
  · exact .inl ⟨by omega, by rw [State.writeRegsFrom_eq]; rfl⟩
  · exact .inr ⟨by omega, rfl⟩

/-- DXYN draws where its bytes exist, or has none, and raises otherwise (R191). -/
theorem execDrwVxVyN_cases (x y : Reg) (n : Fin 16) (s : State) :
    ((n.val = 0 ∨ s.i.toNat + n.val ≤ 4096) ∧ execDrwVxVyN x y n s =
      State.finish { s.writeV regF (flagByte (drawRows (startColumn (s.readV x)) (startRow (s.readV y))
          (s.readBlock s.i.toNat n.val) s.pix false).2) with
        pix := (drawRows (startColumn (s.readV x)) (startRow (s.readV y)) (s.readBlock s.i.toNat n.val) s.pix false).1 }) ∨
    (n.val ≠ 0 ∧ 4096 < s.i.toNat + n.val ∧ execDrwVxVyN x y n s = s.raiseData) := by
  unfold execDrwVxVyN
  split <;> rename_i h <;> rw [blockInRange_iff] at h
  · exact .inl ⟨h, rfl⟩
  · exact .inr ⟨by omega, by omega, rfl⟩

/-- FX0A blocks while no key is pressed, and takes one of the pressed keys otherwise (R203). -/
theorem execLdVxK_cases (x : Reg) (s : State) :
    ((∀ k : Key, s.keys[k] = false) ∧ execLdVxK x s = s.block) ∨
    (∃ k : Key, s.keys[k] = true ∧ execLdVxK x s = State.finish { s.writeV x (keyByte k) with draws := s.draws + 1 }) := by
  unfold execLdVxK
  cases hp : s.pressedKeys with
  | nil =>
    refine .inl ⟨fun k => ?_, rfl⟩
    have := s.mem_pressedKeys k
    rw [hp] at this
    simpa using this
  | cons j js =>
    have hm := chooseKey_mem s.draws (j :: js) (by simp)
    have hk := (s.mem_pressedKeys (chooseKey s.draws (j :: js))).1 (hp ▸ hm)
    exact .inr ⟨_, hk, rfl⟩

/-! ## Every instruction -/

/-- Every instruction completes, or blocks, or raises with nothing else changed (R120, R249). -/
theorem exec_ends (i : Instr) (s : State) :
    (∃ t, exec i s = .next t ∧ t.wait = false ∧ t.outcome = .continued ∧ t.halt = s.halt ∧ t.cause = s.cause ∧
      t.info = s.info ∧ t.keys = s.keys ∧ t.schedule = s.schedule) ∨
    ((∃ x, i = .ldVxK x) ∧ exec i s = s.block) ∨
    ((∀ x, i ≠ .ldVxK x) ∧ ∃ c n, c ≠ .none ∧ exec i s = s.raise c n) := by
  cases i <;> try exact .inl ⟨_, rfl, rfl, rfl, rfl, rfl, rfl, rfl, rfl⟩
  case ret =>
    by_cases h : s.sp.val = 0
    · exact .inr (.inr ⟨by simp, _, _, by simp, State.popReturn_empty s h⟩)
    · exact .inl ⟨_, State.popReturn_of_pos s (by omega), rfl, rfl, rfl, rfl, rfl, rfl, rfl⟩
  case call nnn =>
    by_cases h : s.sp.val < 16
    · exact .inl ⟨_, State.callTo_of_lt s _ h, rfl, rfl, rfl, rfl, rfl, rfl, rfl⟩
    · exact .inr (.inr ⟨by simp, _, _, by simp, State.callTo_full s _ (by omega)⟩)
  case drwVxVyN x y n =>
    rcases execDrwVxVyN_cases x y n s with ⟨_, h⟩ | ⟨_, _, h⟩
    · exact .inl ⟨_, h, rfl, rfl, rfl, rfl, rfl, rfl, rfl⟩
    · exact .inr (.inr ⟨by simp, _, _, by simp, h⟩)
  case ldVxK x =>
    rcases execLdVxK_cases x s with ⟨_, h⟩ | ⟨k, _, h⟩
    · exact .inr (.inl ⟨⟨x, rfl⟩, h⟩)
    · exact .inl ⟨_, h, rfl, rfl, rfl, rfl, rfl, rfl, rfl⟩
  case ldBVx x =>
    rcases execLdBVx_cases x s with ⟨_, h⟩ | ⟨_, h⟩
    · exact .inl ⟨_, h, rfl, rfl, rfl, rfl, rfl, rfl, rfl⟩
    · exact .inr (.inr ⟨by simp, _, _, by simp, h⟩)
  case ldMemVx x =>
    rcases execLdMemVx_cases x s with ⟨_, h⟩ | ⟨_, h⟩
    · exact .inl ⟨_, h, rfl, rfl, rfl, rfl, rfl, rfl, rfl⟩
    · exact .inr (.inr ⟨by simp, _, _, by simp, h⟩)
  case ldVxMem x =>
    rcases execLdVxMem_cases x s with ⟨_, h⟩ | ⟨_, h⟩
    · exact .inl ⟨_, h, rfl, rfl, rfl, rfl, rfl, rfl, rfl⟩
    · exact .inr (.inr ⟨by simp, _, _, by simp, h⟩)

/-! ## Every step -/

/-- A property that the delivery of host events and each of the four ways of a step keep is kept by a step. -/
theorem step_keeps {P : State → Prop} {s t : State} (hs : step s = .next t) (hp : P s.deliver)
    (halted : ∀ u : State, u.halt = true → P u → P { u with outcome := .fatal u.cause u.info })
    (fetch : ∀ u : State, u.halt = false → 4094 < u.pc.toNat → P u →
      P { u with halt := true, cause := .memRangeFetch, info := u.pc, outcome := .fatal .memRangeFetch u.pc })
    (undefined : ∀ (u : State) (e : DecodeError), u.halt = false → u.pc.toNat ≤ 4094 → decodeWord u.fetchWord = .error e → P u →
      P { u with pc := u.pc + 2, wait := false, outcome := .decodeDiag u.pc u.fetchWord })
    (executed : ∀ (u : State) (i : Instr) (t : State), u.halt = false → u.pc.toNat ≤ 4094 → decodeWord u.fetchWord = .ok i →
      P u → exec i u = .next t → P t) : P t := by
  unfold step at hs
  rcases coreStep_cases s.deliver with ⟨h0, h⟩ | ⟨h0, h1, h⟩ | ⟨h0, h1, e, h2, h⟩ | ⟨h0, h1, i, h2, h⟩ <;> rw [h] at hs
  · cases hs; exact halted _ h0 hp
  · cases hs; exact fetch _ h0 h1 hp
  · cases hs; exact undefined _ e h0 h1 h2 hp
  · exact executed _ i t h0 h1 h2 hp hs

end Sys2Proof.Machine
end

