-- ==== Sys2Proof/Laws/Fields.lean ====
section
/-! SUPPORT. The fields of a word and the masks of spec/30_encoding.md R91 and R95 as arithmetic, so that omega sees them. -/

namespace Sys2Proof

theorem val_fieldG (op : Word) : (fieldG op).val = op.toNat / 4096 := by
  have := op.isLt
  simp only [fieldG, Fin.ofNat, BitVec.toNat_ushiftRight, Nat.shiftRight_eq_div_pow]; omega

theorem val_fieldX (op : Word) : (fieldX op).val = op.toNat / 256 % 16 := by
  simp only [fieldX, Fin.ofNat, BitVec.toNat_ushiftRight, Nat.shiftRight_eq_div_pow]

theorem val_fieldY (op : Word) : (fieldY op).val = op.toNat / 16 % 16 := by
  simp only [fieldY, Fin.ofNat, BitVec.toNat_ushiftRight, Nat.shiftRight_eq_div_pow]

theorem val_fieldN (op : Word) : (fieldN op).val = op.toNat % 16 := rfl

theorem toNat_fieldNn (op : Word) : (fieldNn op).toNat = op.toNat % 256 := by simp [fieldNn]

theorem toNat_fieldNnn (op : Word) : (fieldNnn op).toNat = op.toNat % 4096 := by simp [fieldNnn]

theorem toNat_wordXYN (g : Nat) (hg : g < 16) (x y : Reg) (n : Nat) (hn : n < 16) :
    (wordXYN g x y n).toNat = g * 4096 + x.val * 256 + y.val * 16 + n := by
  simp only [wordXYN, BitVec.toNat_ofNat]; omega

theorem toNat_wordXNN (g : Nat) (hg : g < 16) (x : Reg) (nn : Byte) :
    (wordXNN g x nn).toNat = g * 4096 + x.val * 256 + nn.toNat := by
  have := nn.isLt
  simp only [wordXNN, BitVec.toNat_ofNat]; omega

theorem toNat_wordNNN (g : Nat) (hg : g < 16) (nnn : Addr12) : (wordNNN g nnn).toNat = g * 4096 + nnn.toNat := by
  have := nnn.isLt
  simp only [wordNNN, BitVec.toNat_ofNat]; omega

theorem toNat_wordOfBytes (hi lo : Byte) : (wordOfBytes hi lo).toNat = hi.toNat * 256 + lo.toNat := by
  rw [wordOfBytes, BitVec.toNat_append, ← Nat.shiftLeft_add_eq_or_of_lt lo.isLt, Nat.shiftLeft_eq]

/-- A word is its two bytes, high byte first (R63). -/
@[simp] theorem wordOfBytes_high_low (op : Word) : wordOfBytes (highByte op) (lowByte op) = op := by
  have := op.isLt
  apply BitVec.eq_of_toNat_eq
  rw [toNat_wordOfBytes]
  simp [highByte, lowByte, Nat.shiftRight_eq_div_pow]; omega

/-! ## Masks -/

theorem shifted_toNat (op : Word) : ((op >>> 12) <<< 12).toNat = op.toNat / 4096 * 4096 := by
  have := op.isLt
  simp [Nat.shiftLeft_eq, Nat.shiftRight_eq_div_pow]; omega

theorem toNat_and_F000 (op : Word) : (op &&& 0xF000#16).toNat = op.toNat / 4096 * 4096 := by
  rw [← shifted_toNat]
  congr 1
  ext i hi
  interval_cases i <;> simp

theorem toNat_and_low (op : Word) (k : Nat) (hk : k ≤ 16) : (op &&& BitVec.ofNat 16 (2 ^ k - 1)).toNat = op.toNat % 2 ^ k := by
  have : 2 ^ k ≤ 2 ^ 16 := Nat.pow_le_pow_right (by omega) hk
  have : 0 < 2 ^ k := Nat.two_pow_pos k
  rw [BitVec.toNat_and, BitVec.toNat_ofNat, Nat.mod_eq_of_lt (by omega), Nat.and_two_pow_sub_one_eq_mod]

theorem toNat_and_split (op m : Word) (k : Nat) (hk : k ≤ 8)
    (hm : m = 0xF000#16 ||| BitVec.ofNat 16 (2 ^ k - 1)) :
    (op &&& m).toNat = op.toNat / 4096 * 4096 + op.toNat % 2 ^ k := by
  have hdis : (op &&& 0xF000#16) &&& (op &&& BitVec.ofNat 16 (2 ^ k - 1)) = 0#16 := by
    have : 0xF000#16 &&& BitVec.ofNat 16 (2 ^ k - 1) = 0#16 := by interval_cases k <;> rfl
    calc _ = op &&& (0xF000#16 &&& BitVec.ofNat 16 (2 ^ k - 1)) := by ext i hi; simp; grind
      _ = _ := by rw [this, BitVec.and_zero]
  have hor : op &&& m = (op &&& 0xF000#16) ||| (op &&& BitVec.ofNat 16 (2 ^ k - 1)) := by
    rw [hm]; ext i hi; simp; grind
  rw [hor, ← BitVec.add_eq_or_of_and_eq_zero _ _ hdis, BitVec.toNat_add, toNat_and_F000, toNat_and_low op k (by omega)]
  have := op.isLt
  have : op.toNat % 2 ^ k < 256 := Nat.lt_of_lt_of_le (Nat.mod_lt _ (Nat.two_pow_pos k))
    (Nat.pow_le_pow_right (n := 2) (by omega) hk)
  omega

theorem toNat_and_F00F (op : Word) : (op &&& 0xF00F#16).toNat = op.toNat / 4096 * 4096 + op.toNat % 16 :=
  toNat_and_split op _ 4 (by omega) rfl

theorem toNat_and_F0FF (op : Word) : (op &&& 0xF0FF#16).toNat = op.toNat / 4096 * 4096 + op.toNat % 256 :=
  toNat_and_split op _ 8 (by omega) rfl

end Sys2Proof
end

