-- ==== Sys2Proof/Laws/PerInstr.lean ====
section
/-! SUPPORT. Facts about each instruction as syntax, one lemma per constructor. -/

namespace Sys2Proof.Laws

/-- EncodingRow: the word of instruction i, seen through the mask of its row of spec/30_encoding.md R95, is the match of that row. -/
def EncodingRow.Statement (i : Instr) : Prop := encodeWord i &&& i.mask = i.fixedBits

/-! The four masks of R95, on the words of the formats of R92. -/

theorem maskedNNN (g : Nat) (hg : g < 16) (nnn : Addr12) (m : Word) (hm : m.toNat = g * 4096) :
    wordNNN g nnn &&& 0xF000#16 = m := by
  have := nnn.isLt
  apply BitVec.eq_of_toNat_eq
  rw [toNat_and_F000, toNat_wordNNN g hg, hm]; omega

theorem maskedXNN (g : Nat) (hg : g < 16) (x : Reg) (nn : Byte) (m : Word) (hm : m.toNat = g * 4096) :
    wordXNN g x nn &&& 0xF000#16 = m := by
  have := nn.isLt
  apply BitVec.eq_of_toNat_eq
  rw [toNat_and_F000, toNat_wordXNN g hg, hm]; omega

theorem maskedXYN (g : Nat) (hg : g < 16) (x y : Reg) (n : Nat) (hn : n < 16) (m : Word) (hm : m.toNat = g * 4096 + n) :
    wordXYN g x y n &&& 0xF00F#16 = m := by
  apply BitVec.eq_of_toNat_eq
  rw [toNat_and_F00F, toNat_wordXYN g hg x y n hn, hm]; omega

theorem maskedXKK (g : Nat) (hg : g < 16) (x : Reg) (kk : Byte) (m : Word) (hm : m.toNat = g * 4096 + kk.toNat) :
    wordXNN g x kk &&& 0xF0FF#16 = m := by
  have := kk.isLt
  apply BitVec.eq_of_toNat_eq
  rw [toNat_and_F0FF, toNat_wordXNN g hg, hm]; omega

theorem EncodingRow.cls : EncodingRow.Statement .cls := rfl
theorem EncodingRow.ret : EncodingRow.Statement .ret := rfl
theorem EncodingRow.sys (nnn : Addr12) : EncodingRow.Statement (.sys nnn) := maskedNNN _ (by decide) nnn _ rfl
theorem EncodingRow.jp (nnn : Addr12) : EncodingRow.Statement (.jp nnn) := maskedNNN _ (by decide) nnn _ rfl
theorem EncodingRow.call (nnn : Addr12) : EncodingRow.Statement (.call nnn) := maskedNNN _ (by decide) nnn _ rfl
theorem EncodingRow.seVxNn (x : Reg) (nn : Byte) : EncodingRow.Statement (.seVxNn x nn) := maskedXNN _ (by decide) x nn _ rfl
theorem EncodingRow.sneVxNn (x : Reg) (nn : Byte) : EncodingRow.Statement (.sneVxNn x nn) := maskedXNN _ (by decide) x nn _ rfl
theorem EncodingRow.seVxVy (x y : Reg) : EncodingRow.Statement (.seVxVy x y) := maskedXYN _ (by decide) x y _ (by decide) _ rfl
theorem EncodingRow.ldVxNn (x : Reg) (nn : Byte) : EncodingRow.Statement (.ldVxNn x nn) := maskedXNN _ (by decide) x nn _ rfl
theorem EncodingRow.addVxNn (x : Reg) (nn : Byte) : EncodingRow.Statement (.addVxNn x nn) := maskedXNN _ (by decide) x nn _ rfl
theorem EncodingRow.ldVxVy (x y : Reg) : EncodingRow.Statement (.ldVxVy x y) := maskedXYN _ (by decide) x y _ (by decide) _ rfl
theorem EncodingRow.orVxVy (x y : Reg) : EncodingRow.Statement (.orVxVy x y) := maskedXYN _ (by decide) x y _ (by decide) _ rfl
theorem EncodingRow.andVxVy (x y : Reg) : EncodingRow.Statement (.andVxVy x y) := maskedXYN _ (by decide) x y _ (by decide) _ rfl
theorem EncodingRow.xorVxVy (x y : Reg) : EncodingRow.Statement (.xorVxVy x y) := maskedXYN _ (by decide) x y _ (by decide) _ rfl
theorem EncodingRow.addVxVy (x y : Reg) : EncodingRow.Statement (.addVxVy x y) := maskedXYN _ (by decide) x y _ (by decide) _ rfl
theorem EncodingRow.subVxVy (x y : Reg) : EncodingRow.Statement (.subVxVy x y) := maskedXYN _ (by decide) x y _ (by decide) _ rfl
theorem EncodingRow.shrVx (x y : Reg) : EncodingRow.Statement (.shrVx x y) := maskedXYN _ (by decide) x y _ (by decide) _ rfl
theorem EncodingRow.subnVxVy (x y : Reg) : EncodingRow.Statement (.subnVxVy x y) := maskedXYN _ (by decide) x y _ (by decide) _ rfl
theorem EncodingRow.shlVx (x y : Reg) : EncodingRow.Statement (.shlVx x y) := maskedXYN _ (by decide) x y _ (by decide) _ rfl
theorem EncodingRow.sneVxVy (x y : Reg) : EncodingRow.Statement (.sneVxVy x y) := maskedXYN _ (by decide) x y _ (by decide) _ rfl
theorem EncodingRow.ldINnn (nnn : Addr12) : EncodingRow.Statement (.ldINnn nnn) := maskedNNN _ (by decide) nnn _ rfl
theorem EncodingRow.jpV0Nnn (nnn : Addr12) : EncodingRow.Statement (.jpV0Nnn nnn) := maskedNNN _ (by decide) nnn _ rfl
theorem EncodingRow.rndVxNn (x : Reg) (nn : Byte) : EncodingRow.Statement (.rndVxNn x nn) := maskedXNN _ (by decide) x nn _ rfl
theorem EncodingRow.drwVxVyN (x y : Reg) (n : Fin 16) : EncodingRow.Statement (.drwVxVyN x y n) := by
  have := x.isLt
  have := y.isLt
  apply BitVec.eq_of_toNat_eq
  simp only [encodeWord, Instr.mask, Instr.fixedBits]
  rw [toNat_and_F000, toNat_wordXYN 13 (by decide) x y n.val n.isLt, show (0xD000#16).toNat = 53248 from rfl]
  omega
theorem EncodingRow.skpVx (x : Reg) : EncodingRow.Statement (.skpVx x) := maskedXKK _ (by decide) x _ _ rfl
theorem EncodingRow.sknpVx (x : Reg) : EncodingRow.Statement (.sknpVx x) := maskedXKK _ (by decide) x _ _ rfl
theorem EncodingRow.ldVxDt (x : Reg) : EncodingRow.Statement (.ldVxDt x) := maskedXKK _ (by decide) x _ _ rfl
theorem EncodingRow.ldVxK (x : Reg) : EncodingRow.Statement (.ldVxK x) := maskedXKK _ (by decide) x _ _ rfl
theorem EncodingRow.ldDtVx (x : Reg) : EncodingRow.Statement (.ldDtVx x) := maskedXKK _ (by decide) x _ _ rfl
theorem EncodingRow.ldStVx (x : Reg) : EncodingRow.Statement (.ldStVx x) := maskedXKK _ (by decide) x _ _ rfl
theorem EncodingRow.addIVx (x : Reg) : EncodingRow.Statement (.addIVx x) := maskedXKK _ (by decide) x _ _ rfl
theorem EncodingRow.ldFVx (x : Reg) : EncodingRow.Statement (.ldFVx x) := maskedXKK _ (by decide) x _ _ rfl
theorem EncodingRow.ldBVx (x : Reg) : EncodingRow.Statement (.ldBVx x) := maskedXKK _ (by decide) x _ _ rfl
theorem EncodingRow.ldMemVx (x : Reg) : EncodingRow.Statement (.ldMemVx x) := maskedXKK _ (by decide) x _ _ rfl
theorem EncodingRow.ldVxMem (x : Reg) : EncodingRow.Statement (.ldVxMem x) := maskedXKK _ (by decide) x _ _ rfl

end Sys2Proof.Laws
end

