-- ==== Sys2Proof/Tests/Slice0.lean ====
section
/-! SUPPORT. Small tests. Expected values come from spec/95_test_vectors.md (the vector named in each docstring) or from the bits of spec/30_encoding.md, and every obligation with hypotheses has a witness that meets them. -/

namespace Sys2Proof.Tests

open Sys2Proof Sys2Proof.Machine

/-! ## Helpers -/

/-- The answer is a next state of which p holds. -/
def ends (r : Result) (p : State → Bool) : Bool :=
  match r with
  | .next t => p t
  | .fault _ => false
  | .refused _ => false

/-- The reset state with some registers set. -/
def withV (l : List (Reg × Byte)) : State := l.foldl (fun s c => s.writeV c.1 c.2) State.reset

/-- A state with some bytes of memory set. -/
def poke (s : State) (l : List (Nat × Byte)) : State := l.foldl (fun s c => s.writeMem c.1 c.2) s

/-- The keys of a list pressed, all others released. -/
def pressing (ks : List Key) : Vector Bool 16 := Vector.ofFn fun k => ks.contains k

/-- The columns of the set pixels of row y. -/
def columns (s : State) (y : Fin 32) : List (Fin 64) := (List.finRange 64).filter fun x => s.pixel x y

/-! ## Well-formedness (R94, R99) -/

/-- 00E0 is CLS, so SYS 0x0E0 is no instruction. -/
theorem test_sys_of_cls_is_ill_formed : (Instr.sys 0x0E0#12).wellFormed = false := by decide

/-- 00EE is RET, so SYS 0x0EE is no instruction. -/
theorem test_sys_of_ret_is_ill_formed : (Instr.sys 0x0EE#12).wellFormed = false := by decide

/-- 00E1 is SYS (R96). -/
theorem test_other_sys_is_well_formed : (Instr.sys 0x0E1#12).wellFormed = true := by decide

/-! ## Decoding: words written out from the masks and fields of R91 and R95 -/

/-- Family of 41_control_transfer.md. -/
theorem test_decode_control : decodeWord 0x00EE#16 = .ok (.ret) ∧
    decodeWord 0x0ABC#16 = .ok (.sys 0xABC#12) ∧
    decodeWord 0x1ABC#16 = .ok (.jp 0xABC#12) ∧
    decodeWord 0x2ABC#16 = .ok (.call 0xABC#12) ∧
    decodeWord 0x3542#16 = .ok (.seVxNn 5 0x42#8) ∧
    decodeWord 0x4543#16 = .ok (.sneVxNn 5 0x43#8) ∧
    decodeWord 0x5340#16 = .ok (.seVxVy 3 4) ∧
    decodeWord 0x9340#16 = .ok (.sneVxVy 3 4) ∧
    decodeWord 0xB300#16 = .ok (.jpV0Nnn 0x300#12) := by decide

/-- Family of 42_alu.md. -/
theorem test_decode_alu : decodeWord 0x6FAB#16 = .ok (.ldVxNn 15 0xAB#8) ∧
    decodeWord 0x7203#16 = .ok (.addVxNn 2 0x03#8) ∧
    decodeWord 0x8EF0#16 = .ok (.ldVxVy 14 15) ∧
    decodeWord 0x8121#16 = .ok (.orVxVy 1 2) ∧
    decodeWord 0x8122#16 = .ok (.andVxVy 1 2) ∧
    decodeWord 0x8123#16 = .ok (.xorVxVy 1 2) ∧
    decodeWord 0x8124#16 = .ok (.addVxVy 1 2) ∧
    decodeWord 0x8125#16 = .ok (.subVxVy 1 2) ∧
    decodeWord 0x8126#16 = .ok (.shrVx 1 2) ∧
    decodeWord 0x8127#16 = .ok (.subnVxVy 1 2) ∧
    decodeWord 0x812E#16 = .ok (.shlVx 1 2) ∧
    decodeWord 0xC30F#16 = .ok (.rndVxNn 3 0x0F#8) := by decide

/-- Family of 43_index_memory.md. -/
theorem test_decode_index_memory : decodeWord 0xAFFE#16 = .ok (.ldINnn 0xFFE#12) ∧
    decodeWord 0xF21E#16 = .ok (.addIVx 2) ∧
    decodeWord 0xFA29#16 = .ok (.ldFVx 10) ∧
    decodeWord 0xF033#16 = .ok (.ldBVx 0) ∧
    decodeWord 0xF155#16 = .ok (.ldMemVx 1) ∧
    decodeWord 0xF265#16 = .ok (.ldVxMem 2) := by decide

/-- Family of 44_display.md. -/
theorem test_decode_display : decodeWord 0x00E0#16 = .ok (.cls) ∧
    decodeWord 0xD125#16 = .ok (.drwVxVyN 1 2 5) := by decide

/-- Family of 45_keypad_timers.md. -/
theorem test_decode_keypad_timers : decodeWord 0xE59E#16 = .ok (.skpVx 5) ∧
    decodeWord 0xE5A1#16 = .ok (.sknpVx 5) ∧
    decodeWord 0xF207#16 = .ok (.ldVxDt 2) ∧
    decodeWord 0xF10A#16 = .ok (.ldVxK 1) ∧
    decodeWord 0xF015#16 = .ok (.ldDtVx 0) ∧
    decodeWord 0xF418#16 = .ok (.ldStVx 4) := by decide

/-- Vectors T1 to T7 and the single bytes: rejected by name. -/
theorem test_decode_rejects : decodeWord 0x5121#16 = .error .undefinedGroup5 ∧
    decodeWord 0x8128#16 = .error .undefinedGroup8 ∧
    decodeWord 0x812F#16 = .error .undefinedGroup8 ∧
    decodeWord 0x9001#16 = .error .undefinedGroup9 ∧
    decodeWord 0xE19F#16 = .error .undefinedGroupE ∧
    decodeWord 0xF100#16 = .error .undefinedGroupF ∧
    decodeWord 0xF175#16 = .error .undefinedGroupF ∧
    decode [0x60#8] = .error .truncated ∧
    decode [] = .error .truncated := by decide

/-- Program P1: the bytes 60 05 00 EE. -/
theorem test_decode_reads_high_byte_first : decode [0x60#8, 0x05#8, 0x00#8, 0xEE#8] = .ok (.ldVxNn 0 0x05#8, [0x00#8, 0xEE#8]) := by decide

/-- The fields put back into the words above. -/
theorem test_encode_words : encode (.drwVxVyN 1 2 5) = [0xD125#16] ∧ encodeBytes (.jp 0xABC#12) = [0x1A#8, 0xBC#8] ∧ encodeWord (.ldVxMem 15) = 0xFF65#16 := by decide

/-- The host reads and runs one table word: LD V0, 0x05. -/
theorem test_table_word_is_decoded_and_fetched : decodeTableWord 16 0x6005 = some (.ldVxNn 0 0x05#8) ∧
    ends (step (State.reset.withFetchWord 16 0x6005)) (fun t => t.readV 0 == 5 && t.pc == 0x202#16) = true := by decide

/-! ## The step cycle -/

/-- T1: DecodeDiag(0x200, 0x5121). -/
theorem test_undefined_word_advances : ends (step (State.reset.withFetchWord 16 0x5121)) (fun t =>
    t.pc == 0x202#16 && t.outcome == .decodeDiag 0x200#16 0x5121#16 && !t.halt) = true := by decide

/-- T7: DecodeDiag(0x200, 0xF175). -/
theorem test_undefined_word_in_group_f : ends (step (State.reset.withFetchWord 16 0xF175)) (fun t =>
    t.pc == 0x202#16 && t.outcome == .decodeDiag 0x200#16 0xF175#16) = true := by decide

/-- T8: Fatal(3, 0x0FFF), pc unchanged. -/
theorem test_fetch_at_last_byte : ends (step { poke State.reset [(4095, 0x12)] with pc := 4095#16 }) (fun t =>
    t.halt && t.cause.code == 3#3 && t.info == 0x0FFF#16 && t.pc == 4095#16 && t.outcome == .fatal .memRangeFetch 0x0FFF#16) = true := by decide

/-- T9: Fatal(3, 0x1000). -/
theorem test_fetch_past_memory : ends (step { State.reset with pc := 4096#16 }) (fun t =>
    t.halt && t.cause == .memRangeFetch && t.info == 0x1000#16) = true := by decide

/-- T10: the same outcome again. -/
theorem test_halted_step : ends (step { State.reset with halt := true, cause := .memRangeFetch, info := 0x0FFF#16, pc := 4095#16 }) (fun t =>
    t.halt && t.info == 0x0FFF#16 && t.pc == 4095#16 && t.outcome == .fatal .memRangeFetch 0x0FFF#16) = true := by decide

/-- T11: an instruction at 0x203. -/
theorem test_odd_pc : ends (step { poke State.reset [(0x203, 0x60), (0x204, 0x2A)] with pc := 0x203#16 }) (fun t =>
    t.readV 0 == 0x2A#8 && t.pc == 0x205#16) = true := by decide

/-- T12: (2, 1), (1, 0), (0, 0), (0, 0). -/
theorem test_tick_floors_at_zero : let s : State := { State.reset with dt := 2, st := 1 }
    (s.tick.dt, s.tick.st) = (1, 0) ∧ (s.tick.tick.dt, s.tick.tick.st) = (0, 0) ∧ (s.tick.tick.tick.dt, s.tick.tick.tick.st) = (0, 0) := by decide

/-- T13: no decrement when halted. -/
theorem test_halted_tick : (State.tick { State.reset with halt := true, dt := 5 }).dt = 5 := by decide

/-- Program P5: KEY[7] goes down and one tick comes before the step that completes FX0A. -/
theorem test_scheduled_events_come_first : ends (step { State.reset.withFetchWord 16 0xF10A with dt := 58, schedule := [[.keys (pressing [7]), .tick]] }) (fun t =>
    t.readV 1 == 7#8 && t.dt == 57#8 && t.pc == 0x202#16 && t.schedule == []) = true := by decide

/-- A load reaches 0x200 to 0xFFF only (R271). -/
theorem test_load_window : ((State.reset.load 0xFFF 7).readMem 0xFFF, (State.reset.load 0x1FF 7).mem, (State.reset.load 0x1000 7).mem) = (7, [], []) := by decide

/-- Loads come before the first step only (R72). -/
theorem test_legal_loads_stand_in_the_boot_window : legalEvents true [.load 0x200 1, .tick, .load 0xFFF 2, .step] = true ∧ legalEvents true [.step, .load 0x200 1] = false ∧
    legalEvents true [.load 0x1FF 1] = false := by decide

/-- Canonical form: writing what an unlisted address reads as removes the entry. -/
theorem test_write_of_reset_contents_removes_the_entry : ((State.reset.writeMem 0x300 5).writeMem 0x300 0).mem = [] := by decide

/-- T149 start and R270: reset clears all but the key inputs. -/
theorem test_reset_event_leaves_keys : let s : State := { withV [(3, 9)] with halt := true, cause := .memRangeData, info := 0x1000#16, keys := pressing [7] }
    s.resetEvent.keys = pressing [7] ∧ s.resetEvent = { State.reset with keys := pressing [7] } := by decide

/-! ## Control transfer -/

/-- T20: Fatal(2, 0x0200). -/
theorem test_ret_empty : ends (exec (.ret) State.reset) (fun t =>
    t.halt && t.cause.code == 2#3 && t.info == 0x200#16 && t.pc == 0x200#16 && t.sp == 0) = true := by decide

/-- T21. -/
theorem test_ret_pops : ends (exec (.ret) { State.reset with sp := 2, stack := (State.reset.stack.set 0 0x206#16).set 1 0x30A#16 }) (fun t =>
    t.pc == 0x30A#16 && t.sp == 1) = true := by decide

/-- T23: Continue, not a diagnostic. -/
theorem test_sys : ends (exec (.sys 0x0E1#12) State.reset) (fun t =>
    t.pc == 0x202#16 && t.outcome == .continued) = true := by decide

/-- T24. -/
theorem test_jp : ends (exec (.jp 0xABC#12) State.reset) (fun t =>
    t.pc == 0xABC#16) = true := by decide

/-- T28: the sixteenth entry. -/
theorem test_call_pushes : ends (exec (.call 0x300#12) { State.reset with sp := 15 }) (fun t =>
    t.stack[15] == 0x202#16 && t.sp == 16 && t.pc == 0x300#16) = true := by decide

/-- T29: Fatal(1, 0x0200). -/
theorem test_call_full : ends (exec (.call 0x300#12) { State.reset with sp := 16 }) (fun t =>
    t.halt && t.cause.code == 1#3 && t.info == 0x200#16 && t.pc == 0x200#16 && t.sp == 16) = true := by decide

/-- T31. -/
theorem test_se_imm_equal : ends (exec (.seVxNn 5 0x42#8) (withV [(5, 0x42)])) (fun t =>
    t.pc == 0x204#16) = true := by decide

/-- T32. -/
theorem test_se_imm_differs : ends (exec (.seVxNn 5 0x43#8) (withV [(5, 0x42)])) (fun t =>
    t.pc == 0x202#16) = true := by decide

/-- T33. -/
theorem test_sne_imm_equal : ends (exec (.sneVxNn 5 0x42#8) (withV [(5, 0x42)])) (fun t =>
    t.pc == 0x202#16) = true := by decide

/-- T34. -/
theorem test_sne_imm_differs : ends (exec (.sneVxNn 5 0x00#8) (withV [(5, 0x42)])) (fun t =>
    t.pc == 0x204#16) = true := by decide

/-- T35. -/
theorem test_se_reg_equal : ends (exec (.seVxVy 3 3) (withV [(3, 9), (4, 8)])) (fun t =>
    t.pc == 0x204#16) = true := by decide

/-- T37. -/
theorem test_se_reg_differs : ends (exec (.seVxVy 3 4) (withV [(3, 9), (4, 8)])) (fun t =>
    t.pc == 0x202#16) = true := by decide

/-- T36. -/
theorem test_sne_reg_equal : ends (exec (.sneVxVy 3 3) (withV [(3, 9), (4, 8)])) (fun t =>
    t.pc == 0x202#16) = true := by decide

/-- T38. -/
theorem test_sne_reg_differs : ends (exec (.sneVxVy 3 4) (withV [(3, 9), (4, 8)])) (fun t =>
    t.pc == 0x204#16) = true := by decide

/-- T39: pc becomes 4098. -/
theorem test_skip_past_the_end : ends (step { poke State.reset [(4094, 0x30), (4095, 0x00)] with pc := 4094#16 }) (fun t =>
    t.pc == 4098#16 && !t.halt) = true := by decide

/-- T41: not reduced mod 4096. -/
theorem test_jp_offset : ends (exec (.jpV0Nnn 0xFFF#12) (withV [(0, 0xFF)])) (fun t =>
    t.pc == 0x10FE#16) = true := by decide

/-- T42. -/
theorem test_jp_offset_odd : ends (exec (.jpV0Nnn 0x200#12) (withV [(0, 1)])) (fun t =>
    t.pc == 0x201#16) = true := by decide

/-! ## Register load and ALU -/

/-- T50. -/
theorem test_ld_imm : ends (exec (.ldVxNn 15 0xAB#8) (withV [])) (fun t =>
    t.readV 15 == 0xAB#8 && t.pc == 0x202#16) = true := by decide

/-- T51. -/
theorem test_add_imm_wraps_without_flag : ends (exec (.addVxNn 2 0x03#8) (withV [(2, 0xFE)])) (fun t =>
    t.readV 2 == 1#8 && t.readV 15 == 0#8) = true := by decide

/-- T53. -/
theorem test_ld_reg : ends (exec (.ldVxVy 14 15) (withV [(15, 1)])) (fun t =>
    t.readV 14 == 1#8 && t.readV 15 == 1#8) = true := by decide

/-- T54. -/
theorem test_or : ends (exec (.orVxVy 1 2) (withV [(1, 0xF0), (2, 0x0F), (15, 7)])) (fun t =>
    t.readV 1 == 0xFF#8 && t.readV 15 == 7#8) = true := by decide

/-- T55. -/
theorem test_and : ends (exec (.andVxVy 1 2) (withV [(1, 0xF0), (2, 0x3C), (15, 7)])) (fun t =>
    t.readV 1 == 0x30#8 && t.readV 15 == 7#8) = true := by decide

/-- T56. -/
theorem test_xor : ends (exec (.xorVxVy 1 2) (withV [(1, 0xF0), (2, 0x3C), (15, 7)])) (fun t =>
    t.readV 1 == 0xCC#8 && t.readV 15 == 7#8) = true := by decide

/-- T57. -/
theorem test_xor_same : ends (exec (.xorVxVy 1 1) (withV [(1, 0x5A)])) (fun t =>
    t.readV 1 == 0#8) = true := by decide

/-- T61: y = F. -/
theorem test_add_flag_operand : ends (exec (.addVxVy 1 15) (withV [(1, 0xFF), (15, 1)])) (fun t =>
    t.readV 1 == 0#8 && t.readV 15 == 1#8) = true := by decide

/-- T62: x = F. -/
theorem test_add_into_flag : ends (exec (.addVxVy 15 1) (withV [(15, 0xF0), (1, 0x20)])) (fun t =>
    t.readV 15 == 0x10#8) = true := by decide

/-- T63. -/
theorem test_sub_equal : ends (exec (.subVxVy 1 2) (withV [(1, 0x20), (2, 0x20)])) (fun t =>
    t.readV 1 == 0#8 && t.readV 15 == 1#8) = true := by decide

/-- T64. -/
theorem test_sub_borrow : ends (exec (.subVxVy 1 2) (withV [(1, 0x10), (2, 0x20)])) (fun t =>
    t.readV 1 == 0xF0#8 && t.readV 15 == 0#8) = true := by decide

/-- T67: V[2] is not read. -/
theorem test_shr : ends (exec (.shrVx 1 2) (withV [(1, 0x05), (2, 0xEE)])) (fun t =>
    t.readV 1 == 2#8 && t.readV 15 == 1#8 && t.readV 2 == 0xEE#8) = true := by decide

/-- T70: x = F. -/
theorem test_shr_into_flag : ends (exec (.shrVx 15 0) (withV [(15, 0x05)])) (fun t =>
    t.readV 15 == 2#8) = true := by decide

/-- T71. -/
theorem test_subn : ends (exec (.subnVxVy 1 2) (withV [(1, 0x10), (2, 0x20)])) (fun t =>
    t.readV 1 == 0x10#8 && t.readV 15 == 1#8) = true := by decide

/-- T72. -/
theorem test_subn_borrow : ends (exec (.subnVxVy 1 2) (withV [(1, 0x20), (2, 0x10)])) (fun t =>
    t.readV 1 == 0xF0#8 && t.readV 15 == 0#8) = true := by decide

/-- T74. -/
theorem test_shl : ends (exec (.shlVx 1 2) (withV [(1, 0x81), (2, 0xEE)])) (fun t =>
    t.readV 1 == 2#8 && t.readV 15 == 1#8 && t.readV 2 == 0xEE#8) = true := by decide

/-- T77: x = y = F. -/
theorem test_shl_into_flag : ends (exec (.shlVx 15 15) (withV [(15, 0x81)])) (fun t =>
    t.readV 15 == 2#8) = true := by decide

/-- T80: with nn = 0xFF the byte rnd itself, whatever it is. -/
theorem test_rnd_is_a_masked_free_byte : ∃ t, exec (.rndVxNn 3 0xFF#8) State.reset = .next t ∧ t.readV 3 = Config.rnd 0 ∧ t.pc = 0x202#16 := ⟨_, rfl, BitVec.and_allOnes, rfl⟩

/-- T79: with nn = 0 the result is 0, whatever rnd is. -/
theorem test_rnd_masked_away : ∃ t, exec (.rndVxNn 3 0x00#8) State.reset = .next t ∧ t.readV 3 = 0 ∧ t.draws = 1 := ⟨_, rfl, BitVec.and_zero, rfl⟩

/-! ## Index register and memory -/

/-- T90. -/
theorem test_ld_index : ends (exec (.ldINnn 0xFFF#12) State.reset) (fun t =>
    t.i == 0xFFF#16) = true := by decide

/-- T92: VF unchanged. -/
theorem test_add_index_wraps : ends (exec (.addIVx 2) { withV [(2, 0x20)] with i := 0xFF0#16 }) (fun t =>
    t.i == 0x010#16 && t.readV 15 == 0#8) = true := by decide

/-- T97: FONT_BASE + 35 for V = 0x17, whatever FONT_BASE is. -/
theorem test_glyph_address_takes_the_low_nibble : ∃ t, exec (.ldFVx 10) (withV [(10, 0x17)]) = .next t ∧ t.i.toNat = Config.fontBase + 35 := ⟨_, rfl, (toNat_glyphAddress 0x17#8).trans rfl⟩

/-- T101. -/
theorem test_bcd_at_the_end_of_memory : ends (exec (.ldBVx 0) { withV [(0, 123)] with i := 0xFFD#16 }) (fun t =>
    t.readMem 0xFFD == 1#8 && t.readMem 0xFFE == 2#8 && t.readMem 0xFFF == 3#8 && t.i == 0xFFD#16) = true := by decide

/-- T102: nothing is written. -/
theorem test_bcd_out_of_range : ends (exec (.ldBVx 0) { withV [(0, 123)] with i := 0xFFE#16 }) (fun t =>
    t.halt && t.cause.code == 4#3 && t.info == 0x1000#16 && t.mem == [] && t.pc == 0x200#16) = true := by decide

/-- T103. -/
theorem test_store_registers : ends (exec (.ldMemVx 1) { withV [(0, 0x12), (1, 0x08), (2, 0x77)] with i := 0x208#16 }) (fun t =>
    t.mem == [(0x208, 0x12#8), (0x209, 0x08#8)] && t.i == 0x20A#16) = true := by decide

/-- T106: memory and I unchanged. -/
theorem test_store_registers_out_of_range : ends (exec (.ldMemVx 15) { State.reset with i := 0xFF1#16 }) (fun t =>
    t.halt && t.cause == .memRangeData && t.info == 0x1000#16 && t.mem == [] && t.i == 0xFF1#16) = true := by decide

/-- T107. -/
theorem test_load_registers : ends (exec (.ldVxMem 2) { poke (withV [(3, 9)]) [(0x300, 2), (0x301, 5), (0x302, 4)] with i := 0x300#16 }) (fun t =>
    t.readV 0 == 2#8 && t.readV 1 == 5#8 && t.readV 2 == 4#8 && t.readV 3 == 9#8 && t.i == 0x303#16) = true := by decide

/-- T109. -/
theorem test_load_registers_at_the_last_byte : ends (exec (.ldVxMem 0) { poke State.reset [(0xFFF, 0x5A)] with i := 0xFFF#16 }) (fun t =>
    t.readV 0 == 0x5A#8 && t.i == 0#16) = true := by decide

/-! ## Display -/

/-- T120: VF unchanged. -/
theorem test_cls : ends (exec (.cls) { withV [(15, 1)] with pix := (State.reset.pix.set 0 (1#64 <<< 63)).set 31 1#64 }) (fun t =>
    t.pix == State.reset.pix && t.readV 15 == 1#8) = true := by decide

/-- T125. -/
theorem test_drw_clips_at_the_right : ends (exec (.drwVxVyN 0 1 1) { poke (withV [(0, 60)]) [(0x300, 0xFF)] with i := 0x300#16 }) (fun t =>
    columns t 0 == [60, 61, 62, 63] && columns t 1 == [] && t.readV 15 == 0#8) = true := by decide

/-- T127. -/
theorem test_drw_collides : ends (exec (.drwVxVyN 0 1 1) { poke (withV [(0, 56)]) [(0x300, 0x0F)] with i := 0x300#16, pix := State.reset.pix.set 0 8#64 }) (fun t =>
    columns t 0 == [61, 62, 63] && t.readV 15 == 1#8) = true := by decide

/-! ## Keypad and timers -/

/-- T144. -/
theorem test_skp_low_nibble : ends (exec (.skpVx 5) { withV [(5, 0x1A)] with keys := pressing [10] }) (fun t =>
    t.pc == 0x204#16) = true := by decide

/-- T141. -/
theorem test_skp_released : ends (exec (.skpVx 5) (withV [(5, 0x0A)])) (fun t =>
    t.pc == 0x202#16) = true := by decide

/-- T142. -/
theorem test_sknp_released : ends (exec (.sknpVx 5) (withV [(5, 0x0A)])) (fun t =>
    t.pc == 0x204#16) = true := by decide

/-- T143. -/
theorem test_sknp_pressed : ends (exec (.sknpVx 5) { withV [(5, 0x0A)] with keys := pressing [10] }) (fun t =>
    t.pc == 0x202#16) = true := by decide

/-- T145. -/
theorem test_ld_from_delay : ends (exec (.ldVxDt 2) { State.reset with dt := 0x39 }) (fun t =>
    t.readV 2 == 0x39#8 && t.dt == 0x39#8) = true := by decide

/-- T146. -/
theorem test_ld_delay : ends (exec (.ldDtVx 0) (withV [(0, 0x3C)])) (fun t =>
    t.dt == 0x3C#8) = true := by decide

/-- T147: sound_on until two ticks have passed. -/
theorem test_ld_sound : ends (exec (.ldStVx 4) (withV [(4, 2)])) (fun t =>
    t.st == 2#8 && t.soundOn && t.tick.soundOn && !t.tick.tick.soundOn) = true := by decide

/-- T148. -/
theorem test_wait_blocks : ends (exec (.ldVxK 1) State.reset) (fun t =>
    t.wait && t.pc == 0x200#16 && t.readV 1 == 0#8 && t.outcome == .blocked) = true := by decide

/-- T149. -/
theorem test_wait_takes_the_key : ends (exec (.ldVxK 1) { State.reset with wait := true, outcome := .blocked, keys := pressing [7] }) (fun t =>
    t.readV 1 == 7#8 && t.pc == 0x202#16 && !t.wait && t.outcome == .continued) = true := by decide

/-! ## Witnesses: states and operands that meet the hypotheses of the obligations -/

/-- A well-formed SYS beside the two forbidden operands, and the last row. -/
theorem witness_DecodeUndoesEncode : (Instr.sys 0x0E1#12).wellFormed = true ∧ (Instr.ldVxMem 15).wellFormed = true := by decide

/-- A word of the first and one of the last row. -/
theorem witness_EncodeUndoesDecode : decodeWord 0x00E0#16 = .ok .cls ∧ decodeWord 0xFF65#16 = .ok (.ldVxMem 15) := by decide

/-- Both clauses, at a word of 0NNN beside 0x00E0 and at a word of FX65. -/
theorem witness_DecodeSelectsTheTableRow : (decodeWord 0x00E1#16 = .ok (.sys 0x0E1#12) ∧ 0x00E1#16 &&& (Instr.sys 0x0E1#12).mask = (Instr.sys 0x0E1#12).fixedBits ∧
      0x00E1#16 ≠ 0x00E0#16 ∧ 0x00E1#16 ≠ 0x00EE#16) ∧
    0xFF65#16 &&& (Instr.ldVxMem 15).mask = (Instr.ldVxMem 15).fixedBits := by decide

/-- The last address an instruction can stand at (T39). -/
theorem witness_StepRunsTheDecodedInstruction : let s : State := { poke State.reset [(4094, 0x30), (4095, 0x00)] with pc := 4094#16 }
    s.halt = false ∧ s.pc.toNat ≤ 4094 ∧ decodeWord (s.readMem s.pc.toNat ++ s.readMem (s.pc.toNat + 1)) = .ok (.seVxNn 0 0) := by decide

/-- A state with nothing scheduled, and a halted one. -/
theorem witness_HostEventsKeepTheProgramState : State.reset.schedule = [] ∧ (State.halt { State.reset with halt := true, dt := 5, schedule := [[.tick]] }) = true := ⟨rfl, rfl⟩

/-- An undefined word at 0x200 (T1). -/
theorem witness_UndefinedWordIsANoop : let s : State := State.reset.withFetchWord 16 0x5121
    s.halt = false ∧ s.pc.toNat ≤ 4094 ∧ decodeWord (s.readMem s.pc.toNat ++ s.readMem (s.pc.toNat + 1)) = .error .undefinedGroup5 := by decide

/-- An undefined word at the last address an instruction can stand at. -/
theorem witness_UndefinedWordIsANoop_last : let s : State := { poke State.reset [(4094, 0xF1), (4095, 0x00)] with pc := 4094#16 }
    s.halt = false ∧ s.pc.toNat ≤ 4094 ∧ decodeWord (s.readMem s.pc.toNat ++ s.readMem (s.pc.toNat + 1)) = .error .undefinedGroupF := by decide

/-- PC = 4095 (T8). -/
theorem witness_FetchOutOfRangeHalts : let s : State := { State.reset with pc := 4095#16 }
    s.halt = false ∧ 4094 < s.pc.toNat := by decide

/-- The state after T8. -/
theorem witness_HaltedMachineStaysAsItIs : (State.halt { State.reset with halt := true, cause := .memRangeFetch, info := 0x0FFF#16, pc := 4095#16 }) = true := rfl

/-- A halted state and a running one. -/
theorem witness_TickCountsBothTimersDown : (State.halt { State.reset with halt := true }) = true ∧ State.reset.halt = false := ⟨rfl, rfl⟩

/-- The first address of the program is outside the font, whatever FONT_BASE is. -/
theorem witness_ResetPutsEveryPieceToItsValue : ¬ (Config.fontBase ≤ 0x200 ∧ 0x200 < Config.fontBase + 80) := by have := fontBase_le; omega

/-- The window of the load event at its ends, and an address on each side of it. -/
theorem witness_RomIsCopiedVerbatim_load : (0x200 ≤ 0x200 ∧ 0x200 ≤ 0xFFF) ∧ (0x200 ≤ 0xFFF ∧ 0xFFF ≤ 0xFFF) ∧ ¬ (0x200 ≤ 0x1FF ∧ 0x1FF ≤ 0xFFF) ∧ ¬ (0x200 ≤ 0x1000 ∧ 0x1000 ≤ 0xFFF) := by decide

/-- The last byte copied of an image too long by one, and the first address after it. -/
theorem witness_RomIsCopiedVerbatim : let image : List Byte := List.replicate 3585 1
    3583 < image.length ∧ (3583 : Nat) < 3584 ∧ ¬ (0x200 ≤ 4096 ∧ 4096 < 0x200 + min image.length 3584) := by simp only [List.length_replicate]; decide

/-- I, PC and a return address at the ends of their ranges. -/
theorem witness_EveryStepKeepsTheRanges : RangesHold { State.reset with i := 0xFFF#16, pc := 0x10FE#16, sp := 1, stack := State.reset.stack.set 0 4096#16 } ∧
    ∃ t, step { State.reset with i := 0xFFF#16, pc := 0x10FE#16, sp := 1, stack := State.reset.stack.set 0 4096#16 } = .next t := ⟨⟨by decide, by decide, by decide⟩, _, rfl⟩

/-- A waiting machine (T148), and the step that stays blocked. -/
theorem witness_EveryStepKeepsWaitAndBlockedTogether : WaitAgrees { State.reset.withFetchWord 16 0xF10A with wait := true, outcome := .blocked } ∧
    ∃ t, step { State.reset.withFetchWord 16 0xF10A with wait := true, outcome := .blocked } = .next t ∧ t.wait = true := ⟨⟨by decide, fun _ => ⟨rfl, by decide, 1, by decide⟩⟩, _, rfl, rfl⟩

/-- A halted machine (T8). -/
theorem witness_EveryStepKeepsTheErrorLatch : LatchAgrees { State.reset with halt := true, cause := .memRangeFetch, info := 0x0FFF#16, outcome := .fatal .memRangeFetch 0x0FFF#16 } ∧
    ∃ t, step { State.reset with halt := true, cause := .memRangeFetch, info := 0x0FFF#16, outcome := .fatal .memRangeFetch 0x0FFF#16 } = .next t := ⟨⟨fun _ => ⟨rfl, by decide⟩, fun h => absurd h (by decide)⟩, _, rfl⟩

/-- Memory that lists the last address, and a step that stores two bytes (P6). -/
theorem witness_EveryStepKeepsTheMemoryForm : let s : State := { poke (withV [(0, 0x12), (1, 0x08)]) [(0x200, 0xF1), (0x201, 0x55), (4095, 1)] with i := 0x208#16 }
    s.mem.wf = true ∧ ends (step s) (fun t => t.mem == [(0x200, 0xF1), (0x201, 0x55), (0x208, 0x12), (0x209, 0x08), (4095, 1)]) = true := by decide

/-- A memory of two entries against itself. -/
theorem witness_EqualReadsMeanEqualMemories : Memory.wf [(0x200, 1), (4095, 2)] = true := by decide

/-- Each raising clause at its first raising value. -/
theorem witness_InstructionsRaiseExactlyTheListedErrors : ends (exec (.call 0x300#12) { State.reset with sp := 16 }) (·.halt) = true ∧
    ends (exec .ret State.reset) (·.halt) = true ∧
    ends (exec (.ldBVx 0) { State.reset with i := 4094#16 }) (·.halt) = true ∧
    ends (exec (.ldMemVx 1) { State.reset with i := 4095#16 }) (·.halt) = true ∧
    ends (exec (.ldVxMem 1) { State.reset with i := 4095#16 }) (·.halt) = true ∧
    ends (exec (.drwVxVyN 0 1 2) { State.reset with i := 4095#16 }) (·.halt) = true := by decide

/-- Each raising clause at its last value that does not raise. -/
theorem witness_InstructionsRaiseExactlyTheListedErrors_not : ends (exec (.call 0x300#12) { State.reset with sp := 15 }) (fun t => !t.halt) = true ∧
    ends (exec .ret { State.reset with sp := 1 }) (fun t => !t.halt) = true ∧
    ends (exec (.ldBVx 0) { State.reset with i := 4093#16 }) (fun t => !t.halt) = true ∧
    ends (exec (.ldMemVx 0) { State.reset with i := 4095#16 }) (fun t => !t.halt) = true ∧
    ends (exec (.ldVxMem 0) { State.reset with i := 4095#16 }) (fun t => !t.halt) = true ∧
    ends (exec (.drwVxVyN 0 1 1) { State.reset with i := 4095#16 }) (fun t => !t.halt) = true ∧
    ends (exec (.drwVxVyN 0 1 0) { State.reset with i := 0xFFFF#16 }) (fun t => !t.halt) = true := by decide

/-- FX65 for the first clause, 1NNN for the second. -/
theorem witness_OnlyTheMemoryInstructionsTouchMemory : (∃ t, exec (.ldVxMem 0) State.reset = .next t) ∧ (∀ x, Instr.ldVxMem 0 ≠ .ldBVx x ∧ Instr.ldVxMem 0 ≠ .ldMemVx x) ∧
    (∃ t, exec (.jp 0x300#12) State.reset = .next t) ∧
    (∀ x, Instr.jp 0x300#12 ≠ .ldBVx x ∧ Instr.jp 0x300#12 ≠ .ldMemVx x ∧ Instr.jp 0x300#12 ≠ .ldVxMem x) ∧
    ∀ x y n, Instr.jp 0x300#12 ≠ .drwVxVyN x y n := ⟨⟨_, rfl⟩, by simp, ⟨_, rfl⟩, by simp, by simp⟩

/-- FX33 and 00E0 on a screen that is not clear. -/
theorem witness_OnlyClearAndDrawTouchTheScreen : (∃ t, exec (.ldBVx 0) { State.reset with i := 0x300#16, pix := State.reset.pix.set 0 1#64 } = .next t) ∧
    (∃ t, exec .cls { State.reset with pix := State.reset.pix.set 0 1#64 } = .next t) ∧
    Instr.ldBVx 0 ≠ .cls ∧ ∀ x y n, Instr.ldBVx 0 ≠ .drwVxVyN x y n := ⟨⟨_, rfl⟩, ⟨_, rfl⟩, by simp, by simp⟩

/-- 2NNN, 00EE and another instruction; 2NNN with an entry free and with none. -/
theorem witness_OnlyCallAndReturnTouchTheStack : ends (exec (.call 0x300#12) { State.reset with sp := 15 }) (fun t => t.sp == 16) = true ∧
    ends (exec .ret { State.reset with sp := 16 }) (fun t => t.sp == 15) = true ∧
    ends (exec (.call 0x300#12) { State.reset with sp := 16 }) (·.halt) = true ∧
    (∃ t, exec (.sys 0#12) State.reset = .next t) ∧ (∀ nnn, Instr.sys 0#12 ≠ .call nnn) ∧ Instr.sys 0#12 ≠ .ret := ⟨by decide, by decide, by decide, ⟨_, rfl⟩, by simp, by simp⟩

/-- Each clause: an instruction that touches no timer, FX15, FX18 and FX07. -/
theorem witness_TimersBelongToTheirInstructions : (∃ t, exec (.sys 0#12) State.reset = .next t) ∧ (∃ t, exec (.ldDtVx 0) State.reset = .next t) ∧
    (∃ t, exec (.ldStVx 0) State.reset = .next t) ∧ ∃ t, exec (.ldVxDt 0) State.reset = .next t := ⟨⟨_, rfl⟩, ⟨_, rfl⟩, ⟨_, rfl⟩, _, rfl⟩

/-- 8XY4 changes V[1] and VF (T58). -/
theorem witness_RegistersChangeOnlyWhereNamed : ∃ t, exec (.addVxVy 1 2) (withV [(1, 0xFF), (2, 0x01)]) = .next t ∧
    t.readV 1 ≠ (withV [(1, 0xFF), (2, 0x01)]).readV 1 ∧ t.readV 15 ≠ (withV [(1, 0xFF), (2, 0x01)]).readV 15 := ⟨_, rfl, by decide, by decide⟩

/-- FX55 moves I (T104). -/
theorem witness_IndexChangesOnlyWhereNamed : ∃ t, exec (.ldMemVx 0) { State.reset with i := 0x300#16 } = .next t ∧ t.i ≠ 0x300#16 := ⟨_, rfl, by decide⟩

/-- Program P6: 12 08 stored at 0x208. -/
theorem witness_FetchSeesWhatWasStored : let s : State := { withV [(0, 0x12), (1, 0x08)] with i := 0x208#16 }
    s.halt = false ∧ ends (exec (.ldMemVx 1) s) (fun t => !t.halt) = true ∧ (0 : Fin 15).val < (1 : Reg).val ∧
      decodeWord (s.readV (0 : Fin 15).castSucc ++ s.readV (0 : Fin 15).succ) = .ok (.jp 0x208#12) := by decide

/-- T25. -/
theorem witness_SelfJumpIsAFixedPoint : (State.reset.withFetchWord 16 0x1200).atSelfJump := ⟨rfl, by decide, 0x200#12, by decide, by decide⟩

/-- The last entry. -/
theorem witness_CallPushesTheNextAddress : (State.sp { State.reset with sp := 15 }).val < 16 := by decide

/-- One entry, and a full stack. -/
theorem witness_ReturnPopsTheAddress : 0 < (State.sp { State.reset with sp := 1 }).val ∧ 0 < (State.sp { State.reset with sp := 16 }).val := by decide

/-- A full and an empty stack. -/
theorem witness_StackErrorsRaise : (State.sp { State.reset with sp := 16 }).val = 16 ∧ State.reset.sp.val = 0 := by decide

/-- An empty stack and one entry left (S4). -/
theorem witness_CallThenReturnComesBack : State.reset.sp.val < 16 ∧ (State.sp { State.reset with sp := 15 }).val < 16 := by decide

/-- The last address with room for three digits (T101). -/
theorem witness_StoreDecimalDigits : (State.i { State.reset with i := 4093#16 }).toNat + 2 ≤ 4095 := by decide

/-- All sixteen registers at the end of memory (T105), and one at its last byte. -/
theorem witness_StoreRegisters : (State.i { State.reset with i := 0xFF0#16 }).toNat + (15 : Reg).val ≤ 4095 ∧ (State.i { State.reset with i := 4095#16 }).toNat + (0 : Reg).val ≤ 4095 := by decide

/-- One register at the last byte (T109), with k = x and k above x. -/
theorem witness_LoadRegisters : (State.i { State.reset with i := 4095#16 }).toNat + (0 : Reg).val ≤ 4095 ∧ (0 : Reg) ≤ 0 ∧ (0 : Reg) < 1 := by decide

/-- Each clause at its first raising value (T102, T108, T130). -/
theorem witness_DataRangeErrorsRaise : 4095 < (State.i { State.reset with i := 4094#16 }).toNat + 2 ∧
    4095 < (State.i { State.reset with i := 4095#16 }).toNat + (1 : Reg).val ∧
    0 < (2 : Fin 16).val ∧ 4095 < (State.i { State.reset with i := 4095#16 }).toNat + (2 : Fin 16).val - 1 := by decide

/-- S7. -/
theorem witness_StoreThenLoadBringsRegistersBack : (State.i { State.reset with i := 0x300#16 }).toNat + (1 : Reg).val ≤ 4095 ∧ (1 : Reg) ≤ 1 := by decide

/-- One byte at 4095, and none with I out of range. -/
theorem witness_DrawTogglesTheSpritePixels : ((1 : Fin 16).val = 0 ∨ (State.i { State.reset with i := 4095#16 }).toNat + (1 : Fin 16).val - 1 ≤ 4095) ∧
    ((0 : Fin 16).val = 0 ∨ (State.i { State.reset with i := 0xFFFF#16 }).toNat + (0 : Fin 16).val - 1 ≤ 4095) := by decide

/-- T127: a pixel that goes from set to clear. -/
theorem witness_DrawTogglesTheSpritePixels_collision : let s : State := { poke (withV [(0, 56)]) [(0x300, 0x0F)] with i := 0x300#16, pix := State.reset.pix.set 0 8#64 }
    s.pixel 60 0 = true ∧ spriteBit s 0 1 1 60 0 = true ∧ ends (exec (.drwVxVyN 0 1 1) s) (fun t => !t.pixel 60 0) = true := by decide

/-- P4: an empty background, a sprite cut off at the corner, one bit of it on the screen. -/
theorem witness_DrawingTwiceRestoresTheScreen : let s : State := { poke (withV [(1, 60), (2, 30)]) [(0x210, 0xFF), (0x211, 0xFF), (0x212, 0xFF)] with i := 0x210#16 }
    ((3 : Fin 16).val = 0 ∨ s.i.toNat + (3 : Fin 16).val - 1 ≤ 4095) ∧ spriteBit s 1 2 3 63 31 = true ∧ s.pix = Vector.replicate 32 0 := by decide

/-- Every pixel of the reset screen is clear. -/
theorem witness_DrawingTwiceRestoresTheScreen_empty : ∀ px py, State.reset.pixel px py = false := by decide

/-- T144: the low nibble of 0x1A names key 10. -/
theorem witness_KeySkips : (10 : Key).val = ((withV [(5, 0x1A)]).readV 5).toNat % 16 := by decide

/-- No key pressed, and two of them (T150). -/
theorem witness_WaitForKey : (∀ k : Key, State.reset.keys[k] = false) ∧ ∃ k : Key, (pressing [3, 9])[k] = true := ⟨by decide, 9, by decide⟩

end Sys2Proof.Tests
end

section
/-! The host events between steps: spec/40_step_cycle.md R127. -/

namespace Sys2Proof.Proofs

open Sys2Proof Sys2Proof.Machine

/-- Settles O12: the levels read back are the event's own (`State.setKeys_keys`), and every other field is the old
state's. -/
theorem keysEventReplacesTheLevels : Obligations.KeysEventReplacesTheLevels := by
  intro s k
  rw [State.setKeys_keys]
  exact ⟨fun _ => rfl, rfl⟩

end Sys2Proof.Proofs
end

section
/-! The comparison skips: spec/41_control_transfer.md R144 to R147, and the shared advance of R149. -/

namespace Sys2Proof.Proofs

open Sys2Proof Sys2Proof.Machine

/-- Ending an instruction at any PC leaves everything else as it was (R120, R122). -/
theorem frame_setPc (s : State) (a : Word) :
    Frame [] [] s { s with pc := a, wait := false, outcome := .continued } :=
  ⟨fun _ _ => rfl, fun _ => rfl, fun _ => ⟨rfl, fun _ => rfl⟩, fun _ => rfl, fun _ => rfl, fun _ _ => rfl,
    fun _ _ _ => rfl, fun _ => rfl, rfl, rfl, rfl, rfl, rfl⟩

/-- An instruction whose meaning is a skip on `c` completes with PC advanced by 4 or 2 and nothing else changed (R149). -/
theorem completes_of_exec_eq_skipIf {i : Instr} {s : State} {c : Bool} {p : Prop} [Decidable p]
    (hexec : exec i s = s.skipIf c) (hc : c = true ↔ p) :
    Completes i s fun t => t.pc = s.pc + (if p then 4 else 2) ∧ Frame [] [] s t := by
  rw [State.skipIf_eq] at hexec
  refine ⟨_, hexec, rfl, rfl, ?_, frame_setPc s _⟩
  by_cases hp : p
  · simp [hp, hc.mpr hp]
  · simp [hp, mt hc.mp hp]

/-- Settles O39: each of the four instructions is a skip on its own Boolean test, and the test says the comparison of
its rule. -/
theorem comparisonSkips : Obligations.ComparisonSkips :=
  ⟨fun _ _ _ => completes_of_exec_eq_skipIf rfl beq_iff_eq,
    fun _ _ _ => completes_of_exec_eq_skipIf rfl bne_iff_ne,
    fun _ _ _ => completes_of_exec_eq_skipIf rfl beq_iff_eq,
    fun _ _ _ => completes_of_exec_eq_skipIf rfl bne_iff_ne⟩

end Sys2Proof.Proofs
end

section
/-! The instructions that write one register: spec/42_alu.md R160 to R162. -/

namespace Sys2Proof.Proofs

open Sys2Proof Sys2Proof.Machine

/-- Writing one register and ending at any PC leaves everything else as it was (R21, R120). -/
theorem frame_writeV_setPc (s : State) (x : Reg) (b : Byte) (a : Word) :
    Frame [] [x] s { s.writeV x b with pc := a, wait := false, outcome := .continued } := by
  obtain ⟨-, hparts⟩ := frame_setPc s a
  refine ⟨fun r hr => ?_, hparts⟩
  have hne : r ≠ x := fun h => hr (List.mem_singleton.mpr h)
  exact s.readV_writeV_other b hne

/-- An instruction whose meaning is a write of `b` to V[x] with the default advance completes with V[x] = `b` and nothing
else but PC changed (R122). -/
theorem completes_of_exec_eq_writeV_finish {i : Instr} {s : State} {x : Reg} {b : Byte}
    (hexec : exec i s = (s.writeV x b).finish) :
    Completes i s fun t => t.readV x = b ∧ t.pc = s.pc + 2 ∧ Frame [] [x] s t := by
  rw [State.finish_eq] at hexec
  exact ⟨_, hexec, rfl, rfl, s.readV_writeV_same x b, rfl, frame_writeV_setPc s x b _⟩

/-- Settles O40: 6XNN is a write of its immediate to V[x]. -/
theorem loadImmediate : Obligations.LoadImmediate :=
  fun _ _ _ => completes_of_exec_eq_writeV_finish rfl

/-- Settles O41: 7XNN is a write of the 8-bit sum to V[x], and that sum is the sum of the numbers mod 256. -/
theorem addImmediateWithoutFlag : Obligations.AddImmediateWithoutFlag := by
  intro x nn s
  obtain ⟨t, hexec, hwait, houtcome, hsum, hpc, hframe⟩ :=
    completes_of_exec_eq_writeV_finish (i := .addVxNn x nn) (s := s) (x := x) rfl
  refine ⟨t, hexec, hwait, houtcome, ?_, hpc, hframe⟩
  rw [hsum, BitVec.toNat_add]

/-- Settles O42: 8XY0 is a write of V[y] to V[x]. -/
theorem copyRegister : Obligations.CopyRegister :=
  fun _ _ _ => completes_of_exec_eq_writeV_finish rfl

end Sys2Proof.Proofs
end

section
/-! The instruction that sets I: spec/43_index_memory.md R180. -/

namespace Sys2Proof.Proofs

open Sys2Proof Sys2Proof.Machine

/-- Writing I and ending at any PC leaves everything else as it was (R24, R120). -/
theorem frame_setIndex_setPc (s : State) (w a : Word) :
    Frame [.index] [] s { s with i := w, pc := a, wait := false, outcome := .continued } :=
  ⟨fun _ _ => rfl, fun hindex => absurd (List.mem_singleton_self _) hindex, fun _ => ⟨rfl, fun _ => rfl⟩,
    fun _ => rfl, fun _ => rfl, fun _ _ => rfl, fun _ _ _ => rfl, fun _ => rfl, rfl, rfl, rfl, rfl, rfl⟩

/-- An instruction whose meaning is a write of `w` to I with the default advance completes with I = `w` and nothing else
but PC changed (R122). -/
theorem completes_of_exec_eq_setIndex_finish {i : Instr} {s : State} {w : Word}
    (hexec : exec i s = State.finish { s with i := w }) :
    Completes i s fun t => t.i = w ∧ t.pc = s.pc + 2 ∧ Frame [.index] [] s t := by
  rw [State.finish_eq] at hexec
  exact ⟨_, hexec, rfl, rfl, rfl, rfl, frame_setIndex_setPc s w _⟩

/-- Settles O48: ANNN is a write of zext_16(nnn) to I, and the extension keeps the number. -/
theorem loadIndex : Obligations.LoadIndex := by
  intro nnn s
  obtain ⟨t, hexec, hwait, houtcome, hindex, hpc, hframe⟩ :=
    completes_of_exec_eq_setIndex_finish (i := .ldINnn nnn) (s := s) (w := zext16 nnn) rfl
  refine ⟨t, hexec, hwait, houtcome, ?_, hpc, hframe⟩
  rw [hindex, toNat_zext16]

end Sys2Proof.Proofs
end

section
/-! The instruction that clears the screen: spec/44_display.md R190. -/

namespace Sys2Proof.Proofs

open Sys2Proof Sys2Proof.Machine

/-- Every pixel of a screen whose rows are all zero is clear (R32). -/
@[simp] theorem pixel_replicate_zero (x : Fin 64) (y : Fin 32) : Screen.pixel (Vector.replicate 32 0) x y = false := by
  simp [Screen.pixel]

/-- Replacing the pixel buffer and ending at any PC leaves everything else as it was (R32, R120). -/
theorem frame_setPix_setPc (s : State) (p : Screen) (a : Word) :
    Frame [.screen] [] s { s with pix := p, pc := a, wait := false, outcome := .continued } :=
  ⟨fun _ _ => rfl, fun _ => rfl, fun _ => ⟨rfl, fun _ => rfl⟩, fun _ => rfl, fun _ => rfl, fun _ _ => rfl,
    fun hscreen => absurd (List.mem_singleton_self _) hscreen, fun _ => rfl, rfl, rfl, rfl, rfl, rfl⟩

/-- What 00E0 answers: the all-zero screen and the default advance (R190, R122). -/
theorem exec_cls (s : State) : exec .cls s =
    .next { s with pix := Vector.replicate 32 0, pc := s.pc + 2, wait := false, outcome := .continued } :=
  State.finish_eq _

/-- Settles O55: 00E0 replaces the buffer by all-zero rows, in which no pixel is set, and writes nothing else. -/
theorem clearScreen : Obligations.ClearScreen :=
  fun s => ⟨_, exec_cls s, rfl, rfl, pixel_replicate_zero, rfl, frame_setPix_setPc s _ _⟩

end Sys2Proof.Proofs
end

section
/-! The decoder and the encoder: spec/30_encoding.md R91 to R99. -/

namespace Sys2Proof.Proofs

open Sys2Proof Sys2Proof.Machine Sys2Proof.Laws

/-! ## A word put together again from its fields (R91, R92) -/

section
variable {op : Word} {g : Nat} (hg : (fieldG op).val = g)
include hg

theorem wordNNN_of_fields : wordNNN g (fieldNnn op) = op := by
  subst hg
  apply BitVec.eq_of_toNat_eq
  rw [toNat_wordNNN _ (fieldG op).isLt, val_fieldG, toNat_fieldNnn]
  omega

theorem wordXNN_of_fields {nn : Byte} (hnn : fieldNn op = nn) : wordXNN g (fieldX op) nn = op := by
  subst hg hnn
  apply BitVec.eq_of_toNat_eq
  rw [toNat_wordXNN _ (fieldG op).isLt, val_fieldG, val_fieldX, toNat_fieldNn]
  omega

theorem wordXYN_of_fields {n : Nat} (hn : (fieldN op).val = n) : wordXYN g (fieldX op) (fieldY op) n = op := by
  subst hg hn
  apply BitVec.eq_of_toNat_eq
  rw [toNat_wordXYN _ (fieldG op).isLt _ _ _ (fieldN op).isLt, val_fieldG, val_fieldX, val_fieldY, val_fieldN]
  omega

end

/-- The only operands of group 0 whose word is not SYS are those of CLS and RET (R94). -/
theorem wellFormed_sys_fieldNnn {op : Word} (hg : fieldG op = 0) (hcls : op ≠ 0x00E0#16) (hret : op ≠ 0x00EE#16) :
    (Instr.sys (fieldNnn op)).wellFormed = true := by
  have hop : wordNNN 0 (fieldNnn op) = op := wordNNN_of_fields (by rw [hg]; rfl)
  have h1 : fieldNnn op ≠ 0x0E0#12 := fun h => hcls (by rw [← hop, h]; rfl)
  have h2 : fieldNnn op ≠ 0x0EE#12 := fun h => hret (by rw [← hop, h]; rfl)
  simp [Instr.wellFormed, h1, h2]

/-- Settles O3: in each accepting branch of the decoder the operands are the fields of the word, so that the format of
the row puts the word together again. -/
theorem encodeUndoesDecode : Obligations.EncodeUndoesDecode := by
  intro op i h
  unfold decodeWord at h
  split at h
  case isTrue hop => cases h; exact ⟨rfl, hop.symm⟩
  split at h
  case isTrue hop => cases h; exact ⟨rfl, hop.symm⟩
  case isFalse hcls hret =>
  split at h
  case h_1 hg => cases h; exact ⟨wellFormed_sys_fieldNnn hg hcls hret, wordNNN_of_fields (by rw [hg]; rfl)⟩
  case h_16 =>
    have hg : (fieldG op).val = 15 := by
      simp only [imp_false] at *
      omega
    split at h <;> cases h
    all_goals exact ⟨rfl, wordXNN_of_fields hg ‹_›⟩
  all_goals try split at h
  all_goals cases h
  all_goals
    simp_all [encodeWord, Instr.wellFormed, wordNNN_of_fields, wordXNN_of_fields, wordXYN_of_fields]

/-! ## The fields of a word put together -/

section
variable {g : Nat} (hg : g < 16) (x y : Reg)
include hg

theorem fieldNnn_wordNNN (nnn : Addr12) : fieldNnn (wordNNN g nnn) = nnn := by
  apply BitVec.eq_of_toNat_eq
  rw [toNat_fieldNnn, toNat_wordNNN g hg]
  omega

theorem fieldX_wordXNN (nn : Byte) : fieldX (wordXNN g x nn) = x := by
  apply Fin.ext
  rw [val_fieldX, toNat_wordXNN g hg]
  omega

theorem fieldNn_wordXNN (nn : Byte) : fieldNn (wordXNN g x nn) = nn := by
  apply BitVec.eq_of_toNat_eq
  rw [toNat_fieldNn, toNat_wordXNN g hg]
  omega

theorem fieldX_wordXYN {n : Nat} (hn : n < 16) : fieldX (wordXYN g x y n) = x := by
  apply Fin.ext
  rw [val_fieldX, toNat_wordXYN g hg x y n hn]
  omega

theorem fieldY_wordXYN {n : Nat} (hn : n < 16) : fieldY (wordXYN g x y n) = y := by
  apply Fin.ext
  rw [val_fieldY, toNat_wordXYN g hg x y n hn]
  omega

theorem fieldN_wordXYN (n : Fin 16) : fieldN (wordXYN g x y n.val) = n := by
  apply Fin.ext
  rw [val_fieldN, toNat_wordXYN g hg x y n.val n.isLt]
  omega

end

/-! ## The row of a word -/

/-- The instruction of the same row as i whose operands are the fields of op (R91, R95). -/
def withFields (op : Word) : Instr → Instr
  | .cls => .cls
  | .ret => .ret
  | .sys _ => .sys (fieldNnn op)
  | .jp _ => .jp (fieldNnn op)
  | .call _ => .call (fieldNnn op)
  | .seVxNn _ _ => .seVxNn (fieldX op) (fieldNn op)
  | .sneVxNn _ _ => .sneVxNn (fieldX op) (fieldNn op)
  | .seVxVy _ _ => .seVxVy (fieldX op) (fieldY op)
  | .ldVxNn _ _ => .ldVxNn (fieldX op) (fieldNn op)
  | .addVxNn _ _ => .addVxNn (fieldX op) (fieldNn op)
  | .ldVxVy _ _ => .ldVxVy (fieldX op) (fieldY op)
  | .orVxVy _ _ => .orVxVy (fieldX op) (fieldY op)
  | .andVxVy _ _ => .andVxVy (fieldX op) (fieldY op)
  | .xorVxVy _ _ => .xorVxVy (fieldX op) (fieldY op)
  | .addVxVy _ _ => .addVxVy (fieldX op) (fieldY op)
  | .subVxVy _ _ => .subVxVy (fieldX op) (fieldY op)
  | .shrVx _ _ => .shrVx (fieldX op) (fieldY op)
  | .subnVxVy _ _ => .subnVxVy (fieldX op) (fieldY op)
  | .shlVx _ _ => .shlVx (fieldX op) (fieldY op)
  | .sneVxVy _ _ => .sneVxVy (fieldX op) (fieldY op)
  | .ldINnn _ => .ldINnn (fieldNnn op)
  | .jpV0Nnn _ => .jpV0Nnn (fieldNnn op)
  | .rndVxNn _ _ => .rndVxNn (fieldX op) (fieldNn op)
  | .drwVxVyN _ _ _ => .drwVxVyN (fieldX op) (fieldY op) (fieldN op)
  | .skpVx _ => .skpVx (fieldX op)
  | .sknpVx _ => .sknpVx (fieldX op)
  | .ldVxDt _ => .ldVxDt (fieldX op)
  | .ldVxK _ => .ldVxK (fieldX op)
  | .ldDtVx _ => .ldDtVx (fieldX op)
  | .ldStVx _ => .ldStVx (fieldX op)
  | .addIVx _ => .addIVx (fieldX op)
  | .ldFVx _ => .ldFVx (fieldX op)
  | .ldBVx _ => .ldBVx (fieldX op)
  | .ldMemVx _ => .ldMemVx (fieldX op)
  | .ldVxMem _ => .ldVxMem (fieldX op)

theorem mask_withFields (op : Word) (i : Instr) : (withFields op i).mask = i.mask := by
  cases i <;> rfl

theorem fixedBits_withFields (op : Word) (i : Instr) : (withFields op i).fixedBits = i.fixedBits := by
  cases i <;> rfl

/-- The fields of an instruction's word are its operands. -/
theorem withFields_encodeWord (i : Instr) : withFields (encodeWord i) i = i := by
  cases i <;> simp [withFields, encodeWord, fieldNnn_wordNNN, fieldX_wordXNN, fieldNn_wordXNN, fieldX_wordXYN,
    fieldY_wordXYN, fieldN_wordXYN]

/-- What the bits under a mask say of the fields (R95). -/
theorem fieldG_of_and_F000 {op m : Word} (h : op &&& 0xF000#16 = m) : fieldG op = fieldG m := by
  have h' := congrArg BitVec.toNat h
  rw [toNat_and_F000] at h'
  apply Fin.ext
  rw [val_fieldG, val_fieldG, ← h']
  omega

theorem fields_of_and_F00F {op m : Word} (h : op &&& 0xF00F#16 = m) : fieldG op = fieldG m ∧ fieldN op = fieldN m := by
  have h' := congrArg BitVec.toNat h
  rw [toNat_and_F00F] at h'
  constructor <;> apply Fin.ext
  · rw [val_fieldG, val_fieldG, ← h']; omega
  · rw [val_fieldN, val_fieldN, ← h']; omega

theorem fields_of_and_F0FF {op m : Word} (h : op &&& 0xF0FF#16 = m) : fieldG op = fieldG m ∧ fieldNn op = fieldNn m := by
  have h' := congrArg BitVec.toNat h
  rw [toNat_and_F0FF] at h'
  constructor
  · apply Fin.ext
    rw [val_fieldG, val_fieldG, ← h']; omega
  · apply BitVec.eq_of_toNat_eq
    rw [toNat_fieldNn, toNat_fieldNn, ← h']; omega

/-- The two exact words are words of group 0 (R94). -/
theorem ne_exact_words {op : Word} (hg : fieldG op ≠ 0) : op ≠ 0x00E0#16 ∧ op ≠ 0x00EE#16 :=
  ⟨fun h => hg (by rw [h]; rfl), fun h => hg (by rw [h]; rfl)⟩

/-- A word decodes to the instruction of each row whose mask and match select it, with its own fields as operands. -/
theorem decodeWord_of_row {op : Word} {i : Instr} (h : op &&& i.mask = i.fixedBits)
    (hsys : (∃ nnn, i = .sys nnn) → op ≠ 0x00E0#16 ∧ op ≠ 0x00EE#16) : decodeWord op = .ok (withFields op i) := by
  cases i
  case cls =>
    obtain rfl : op = 0x00E0#16 := BitVec.and_allOnes.symm.trans h
    rfl
  case ret =>
    obtain rfl : op = 0x00EE#16 := BitVec.and_allOnes.symm.trans h
    rfl
  case sys nnn =>
    simp only [Instr.mask, Instr.fixedBits] at h
    have hg := fieldG_of_and_F000 h
    simp only [decodeWord, hg, hsys ⟨nnn, rfl⟩, if_false]
    rfl
  case jp | call | seVxNn | sneVxNn | ldVxNn | addVxNn | ldINnn | jpV0Nnn | rndVxNn | drwVxVyN =>
    simp only [Instr.mask, Instr.fixedBits] at h
    have hg := fieldG_of_and_F000 h
    have hne := ne_exact_words (hg.trans_ne (by decide))
    simp only [decodeWord, hg, hne, if_false]
    rfl
  case seVxVy | ldVxVy | orVxVy | andVxVy | xorVxVy | addVxVy | subVxVy | shrVx | subnVxVy | shlVx | sneVxVy =>
    simp only [Instr.mask, Instr.fixedBits] at h
    obtain ⟨hg, hn⟩ := fields_of_and_F00F h
    have hne := ne_exact_words (hg.trans_ne (by decide))
    simp only [decodeWord, hg, hn, hne, if_false]
    rfl
  case skpVx | sknpVx | ldVxDt | ldVxK | ldDtVx | ldStVx | addIVx | ldFVx | ldBVx | ldMemVx | ldVxMem =>
    simp only [Instr.mask, Instr.fixedBits] at h
    obtain ⟨hg, hnn⟩ := fields_of_and_F0FF h
    have hne := ne_exact_words (hg.trans_ne (by decide))
    simp only [decodeWord, hg, hnn, hne, if_false]
    rfl

/-- Every instruction's word lies in the row of the instruction (R95). -/
theorem encodeWord_and_mask (i : Instr) : encodeWord i &&& i.mask = i.fixedBits := by
  cases i
  case cls | ret => rfl
  case sys | jp | call | ldINnn | jpV0Nnn => exact maskedNNN _ (by decide) _ _ rfl
  case seVxNn | sneVxNn | ldVxNn | addVxNn | rndVxNn => exact maskedXNN _ (by decide) _ _ _ rfl
  case seVxVy | ldVxVy | orVxVy | andVxVy | xorVxVy | addVxVy | subVxVy | shrVx | subnVxVy | shlVx | sneVxVy =>
    exact maskedXYN _ (by decide) _ _ _ (by decide) _ rfl
  case drwVxVyN => exact EncodingRow.drwVxVyN _ _ _
  case skpVx | sknpVx | ldVxDt | ldVxK | ldDtVx | ldStVx | addIVx | ldFVx | ldBVx | ldMemVx | ldVxMem =>
    exact maskedXKK _ (by decide) _ _ _ rfl

/-- A well-formed SYS is neither of the two exact words (R99). -/
theorem encodeWord_sys_ne {nnn : Addr12} (h : (Instr.sys nnn).wellFormed = true) :
    encodeWord (.sys nnn) ≠ 0x00E0#16 ∧ encodeWord (.sys nnn) ≠ 0x00EE#16 := by
  have hnnn : fieldNnn (encodeWord (.sys nnn)) = nnn := fieldNnn_wordNNN (by decide) nnn
  constructor <;>
  · intro he
    rw [he] at hnnn
    subst hnnn
    exact absurd h (by decide)

/-- Settles O2: the word of an instruction lies in its row and its fields are the operands; the bytes are the word's
high and low byte, from which decoding puts the word together again. -/
theorem decodeUndoesEncode : Obligations.DecodeUndoesEncode := by
  intro i hwf
  have hword : decodeWord (encodeWord i) = .ok i := by
    rw [decodeWord_of_row (encodeWord_and_mask i), withFields_encodeWord]
    rintro ⟨nnn, rfl⟩
    exact encodeWord_sys_ne hwf
  refine ⟨hword, fun rest => ?_⟩
  simp only [encodeBytes, List.cons_append, List.nil_append, decode, wordOfBytes_high_low, hword]

/-- Settles O4: a decoded word is the word of its instruction, which lies in the row; and a word in a row decodes to the
row's instruction with the word's own fields. -/
theorem decodeSelectsTheTableRow : Obligations.DecodeSelectsTheTableRow := by
  refine ⟨fun op i h => ?_, fun op i h hsys =>
    ⟨withFields op i, decodeWord_of_row h hsys, mask_withFields op i, fixedBits_withFields op i⟩⟩
  obtain ⟨hwf, rfl⟩ := encodeUndoesDecode op i h
  refine ⟨encodeWord_and_mask i, ?_⟩
  rintro ⟨nnn, rfl⟩
  exact encodeWord_sys_ne hwf

/-! ## The undefined words (R96) -/

/-- The decoder rejects a word by its group and its secondary selector. -/
theorem decodeWord_eq_error_iff (op : Word) (e : DecodeError) : decodeWord op = .error e ↔
    (fieldG op = 0x5 ∧ fieldN op ≠ 0 ∧ e = .undefinedGroup5) ∨
    (fieldG op = 0x8 ∧ fieldN op ∈ [0x8, 0x9, 0xA, 0xB, 0xC, 0xD, 0xF] ∧ e = .undefinedGroup8) ∨
    (fieldG op = 0x9 ∧ fieldN op ≠ 0 ∧ e = .undefinedGroup9) ∨
    (fieldG op = 0xE ∧ fieldNn op ∉ [0x9E#8, 0xA1#8] ∧ e = .undefinedGroupE) ∨
    (fieldG op = 0xF ∧ fieldNn op ∉ [0x07#8, 0x0A#8, 0x15#8, 0x18#8, 0x1E#8, 0x29#8, 0x33#8, 0x55#8, 0x65#8] ∧
      e = .undefinedGroupF) := by
  constructor
  · intro h
    unfold decodeWord at h
    repeat' split at h
    all_goals cases h
    all_goals simp_all
    all_goals omega
  · rintro (⟨hg, hn, rfl⟩ | ⟨hg, hn, rfl⟩ | ⟨hg, hn, rfl⟩ | ⟨hg, hn, rfl⟩ | ⟨hg, hn, rfl⟩)
    all_goals have hne := ne_exact_words (hg.trans_ne (by decide))
    all_goals simp only [decodeWord, hg, hne, if_false]
    case inl => rw [if_neg hn]
    case inr.inr.inl => rw [if_neg hn]
    all_goals split <;> simp_all

/-- Settles O5: the branches of the decoder that reject, with the fields read as numbers. -/
theorem undefinedWordsAreExactlyTheListed : Obligations.UndefinedWordsAreExactlyTheListed := by
  intro op e
  rw [decodeWord_eq_error_iff]
  simp only [List.mem_cons, List.not_mem_nil, Fin.ext_iff, BitVec.toNat_eq, val_fieldG, val_fieldN, toNat_fieldNn, ne_eq]
  rfl

/-- Settles O1: the decoder evaluated on each of the words. -/
theorem specWordsDecodeAsWritten : Obligations.SpecWordsDecodeAsWritten := by
  unfold Obligations.SpecWordsDecodeAsWritten
  decide

end Sys2Proof.Proofs
end

section
/-! The instructions with more than one path, each as one equation whose branches are written on the parts of the state
they use; what an instruction leaves alone and what it does not depend on then shows in the equation. -/

namespace Sys2Proof.Proofs

open Sys2Proof Sys2Proof.Machine

/-- The memory after a block of bytes is stored in it (R64). -/
def blockStored (m : Memory) (base : Nat) (bs : List Byte) : Memory :=
  (State.writeBlock { State.reset with mem := m } base bs).mem

/-- The bytes of a block of memory (R64). -/
def blockRead (m : Memory) (base n : Nat) : List Byte := State.readBlock { State.reset with mem := m } base n

/-- The registers after V[0], V[1], ... are loaded with a list of bytes (R185). -/
def regsLoaded (v : Vector Byte 16) (bs : List Byte) : Vector Byte 16 :=
  (State.writeRegsFrom { State.reset with v := v } 0 bs).v

section
variable (s : State)

theorem writeBlock_mem (base : Nat) (bs : List Byte) : (s.writeBlock base bs).mem = blockStored s.mem base bs :=
  State.writeBlock_mem_congr (t := s) (s := { State.reset with mem := s.mem }) rfl base bs

theorem writeBlock_eq_blockStored (base : Nat) (bs : List Byte) :
    s.writeBlock base bs = { s with mem := blockStored s.mem base bs } := by
  rw [State.writeBlock_eq, writeBlock_mem]

theorem readBlock_eq_blockRead (base n : Nat) : s.readBlock base n = blockRead s.mem base n :=
  State.readBlock_congr (t := s) (s := { State.reset with mem := s.mem }) rfl base n

theorem writeRegsFrom_v (bs : List Byte) : (s.writeRegsFrom 0 bs).v = regsLoaded s.v bs :=
  State.writeRegsFrom_v_congr (t := s) (s := { State.reset with v := s.v }) rfl 0 bs

theorem writeRegsFrom_eq_regsLoaded (bs : List Byte) :
    s.writeRegsFrom 0 bs = { s with v := regsLoaded s.v bs } := by
  rw [State.writeRegsFrom_eq, writeRegsFrom_v]

theorem exec_call (nnn : Addr12) : exec (.call nnn) s =
    if h : s.sp.val < 16 then .next { s with
      stack := s.stack.set s.sp.val (s.pc + 2) h, sp := ⟨s.sp.val + 1, by omega⟩, pc := zext16 nnn,
      wait := false, outcome := .continued }
    else s.raise .stackOverflow s.pc := rfl

theorem exec_ret : exec .ret s =
    if _h : s.sp.val = 0 then s.raise .stackUnderflow s.pc
    else .next { s with
      sp := ⟨s.sp.val - 1, by omega⟩, pc := s.stack[s.sp.val - 1]'(by omega), wait := false, outcome := .continued } :=
  rfl

theorem exec_drwVxVyN (x y : Reg) (n : Fin 16) : exec (.drwVxVyN x y n) s =
    if blockInRange s.i.toNat n.val then .next { s with
      v := s.v.set regF (flagByte (drawRows (startColumn (s.readV x)) (startRow (s.readV y))
        (blockRead s.mem s.i.toNat n.val) s.pix false).2),
      pix := (drawRows (startColumn (s.readV x)) (startRow (s.readV y))
        (blockRead s.mem s.i.toNat n.val) s.pix false).1,
      pc := s.pc + 2, wait := false, outcome := .continued }
    else s.raiseData := by
  rw [← readBlock_eq_blockRead]
  rfl

theorem exec_ldBVx (x : Reg) : exec (.ldBVx x) s =
    if blockInRange s.i.toNat 3 then .next { s with
      mem := blockStored s.mem s.i.toNat (bcdDigits (s.readV x)), pc := s.pc + 2, wait := false, outcome := .continued }
    else s.raiseData := by
  change execLdBVx x s = _
  rw [execLdBVx, writeBlock_eq_blockStored]
  rfl

theorem exec_ldMemVx (x : Reg) : exec (.ldMemVx x) s =
    if blockInRange s.i.toNat (x.val + 1) then .next { s with
      mem := blockStored s.mem s.i.toNat (s.readRegsTo x), i := indexPlus s.i (x.val + 1),
      pc := s.pc + 2, wait := false, outcome := .continued }
    else s.raiseData := by
  change execLdMemVx x s = _
  rw [execLdMemVx, writeBlock_eq_blockStored]
  rfl

theorem exec_ldVxMem (x : Reg) : exec (.ldVxMem x) s =
    if blockInRange s.i.toNat (x.val + 1) then .next { s with
      v := regsLoaded s.v (blockRead s.mem s.i.toNat (x.val + 1)), i := indexPlus s.i (x.val + 1),
      pc := s.pc + 2, wait := false, outcome := .continued }
    else s.raiseData := by
  change execLdVxMem x s = _
  rw [execLdVxMem, writeRegsFrom_eq_regsLoaded, readBlock_eq_blockRead]
  rfl

theorem exec_ldVxK (x : Reg) : exec (.ldVxK x) s =
    if s.pressedKeys.isEmpty then s.block
    else State.finish { s.writeV x (keyByte (chooseKey s.draws s.pressedKeys)) with draws := s.draws + 1 } := rfl

end

/-! ## Non-interference: a part replaced before an instruction is the part replaced after it -/

theorem next_unique {r : Result} {t u : State} (ht : r = .next t) (hu : r = .next u) : t = u :=
  Host.Outcome.next.inj (ht.symm.trans hu)

theorem next_of_dite {c : Prop} [Decidable c] {a a' : c → Result} {b b' : ¬c → Result} {t u : State}
    (h : (if hc : c then a hc else b hc) = .next t) (ha : ∀ hc, a hc = .next t → a' hc = .next u)
    (hb : ∀ hc, b hc = .next t → b' hc = .next u) : (if hc : c then a' hc else b' hc) = .next u := by
  split
  case isTrue hc => exact ha hc (by rwa [dif_pos hc] at h)
  case isFalse hc => exact hb hc (by rwa [dif_neg hc] at h)

theorem next_of_ite {c : Prop} [Decidable c] {a a' b b' : Result} {t u : State}
    (h : (if c then a else b) = .next t) (ha : a = .next t → a' = .next u)
    (hb : b = .next t → b' = .next u) : (if c then a' else b') = .next u :=
  next_of_dite h (fun _ => ha) (fun _ => hb)

/-- What happens to the parts of the state that few instructions use: each is kept, or replaced by what a function makes
of it. -/
structure Replacement where
  mem : Memory → Memory := id
  pix : Screen → Screen := id
  stack : Vector Word 16 → Vector Word 16 := id
  sp : Fin 17 → Fin 17 := id
  dt : Byte → Byte := id
  st : Byte → Byte := id
  schedule : List (List HostEvent) → List (List HostEvent) := id

/-- The state with its parts replaced. -/
def Replacement.apply (f : Replacement) (s : State) : State := { s with
  mem := f.mem s.mem, pix := f.pix s.pix, stack := f.stack s.stack, sp := f.sp s.sp, dt := f.dt s.dt, st := f.st s.st,
  schedule := f.schedule s.schedule }

/-- A replacement keeps the parts that an instruction reads or writes. -/
def Replacement.Spares (f : Replacement) : Instr → Prop
  | .cls => f.pix = id
  | .ret | .call _ => f.stack = id ∧ f.sp = id
  | .drwVxVyN _ _ _ => f.mem = id ∧ f.pix = id
  | .ldBVx _ | .ldMemVx _ | .ldVxMem _ => f.mem = id
  | .ldVxDt _ | .ldDtVx _ => f.dt = id
  | .ldStVx _ => f.st = id
  | _ => True

/-- What an instruction does does not depend on the parts it neither reads nor writes, and it passes them on. -/
theorem exec_replace {i : Instr} {s t : State} (h : exec i s = .next t) (f : Replacement) (hf : f.Spares i) :
    exec i (f.apply s) = .next (f.apply t) := by
  obtain ⟨mem, pix, stack, sp, dt, st, schedule⟩ := f
  cases i
  case cls => obtain rfl : pix = id := hf; cases h; rfl
  case ldVxDt | ldDtVx => obtain rfl : dt = id := hf; cases h; rfl
  case ldStVx => obtain rfl : st = id := hf; cases h; rfl
  case ret | call =>
    obtain ⟨rfl, rfl⟩ : stack = id ∧ sp = id := hf
    exact next_of_dite h (by rintro - ⟨⟩; rfl) (by rintro - ⟨⟩; rfl)
  case ldVxK => exact next_of_ite h (by rintro ⟨⟩; rfl) (by rintro ⟨⟩; rfl)
  case drwVxVyN =>
    obtain ⟨rfl, rfl⟩ : mem = id ∧ pix = id := hf
    rw [exec_drwVxVyN] at h ⊢
    exact next_of_ite h (by rintro ⟨⟩; rfl) (by rintro ⟨⟩; rfl)
  case ldBVx | ldMemVx | ldVxMem =>
    obtain rfl : mem = id := hf
    simp only [exec_ldBVx, exec_ldMemVx, exec_ldVxMem] at h ⊢
    exact next_of_ite h (by rintro ⟨⟩; rfl) (by rintro ⟨⟩; rfl)
  all_goals cases h; rfl

section
variable {i : Instr} {s t : State} (h : exec i s = .next t)
include h

theorem exec_replace_mem (m : Memory) (hmem : ∀ x, i ≠ .ldBVx x ∧ i ≠ .ldMemVx x ∧ i ≠ .ldVxMem x)
    (hdrw : ∀ x y n, i ≠ .drwVxVyN x y n) : exec i { s with mem := m } = .next { t with mem := m } :=
  exec_replace h { mem := fun _ => m } (by cases i <;> simp_all [Replacement.Spares])

theorem exec_replace_pix (p : Screen) (hcls : i ≠ .cls) (hdrw : ∀ x y n, i ≠ .drwVxVyN x y n) :
    exec i { s with pix := p } = .next { t with pix := p } :=
  exec_replace h { pix := fun _ => p } (by cases i <;> simp_all [Replacement.Spares])

theorem exec_replace_stack (entries : Vector Word 16) (depth : Fin 17) (hcall : ∀ nnn, i ≠ .call nnn)
    (hret : i ≠ .ret) :
    exec i { s with stack := entries, sp := depth } = .next { t with stack := entries, sp := depth } :=
  exec_replace h { stack := fun _ => entries, sp := fun _ => depth } (by cases i <;> simp_all [Replacement.Spares])

theorem exec_replace_dt (b : Byte) (hdt : ∀ x, i ≠ .ldDtVx x ∧ i ≠ .ldVxDt x) :
    exec i { s with dt := b } = .next { t with dt := b } :=
  exec_replace h { dt := fun _ => b } (by cases i <;> simp_all [Replacement.Spares])

theorem exec_replace_st (b : Byte) (hst : ∀ x, i ≠ .ldStVx x) :
    exec i { s with st := b } = .next { t with st := b } :=
  exec_replace h { st := fun _ => b } (by cases i <;> simp_all [Replacement.Spares])

theorem exec_replace_schedule (l : List (List HostEvent)) :
    exec i { s with schedule := l } = .next { t with schedule := l } :=
  exec_replace h { schedule := fun _ => l } (by cases i <;> simp [Replacement.Spares])

/-! ## What an instruction leaves alone: a part replaced by itself -/

theorem exec_mem (hmem : ∀ x, i ≠ .ldBVx x ∧ i ≠ .ldMemVx x) : t.mem = s.mem := by
  by_cases hreads : (∃ x, i = .ldVxMem x) ∨ ∃ x y n, i = .drwVxVyN x y n
  · obtain ⟨x, rfl⟩ | ⟨x, y, n, rfl⟩ := hreads
    all_goals
      simp only [exec_ldVxMem, exec_drwVxVyN] at h
      split at h <;> cases h <;> rfl
  · rw [not_or] at hreads
    have hload : ∀ x, i ≠ .ldVxMem x := fun x hx => hreads.1 ⟨x, hx⟩
    have hdrw : ∀ x y n, i ≠ .drwVxVyN x y n := fun x y n hx => hreads.2 ⟨x, y, n, hx⟩
    have hself := exec_replace_mem h s.mem (fun x => ⟨(hmem x).1, (hmem x).2, hload x⟩) hdrw
    exact (congrArg State.mem (next_unique h hself) :)

theorem exec_pix (hcls : i ≠ .cls) (hdrw : ∀ x y n, i ≠ .drwVxVyN x y n) : t.pix = s.pix :=
  (congrArg State.pix (next_unique h (exec_replace_pix h s.pix hcls hdrw)) :)

theorem exec_sp (hcall : ∀ nnn, i ≠ .call nnn) (hret : i ≠ .ret) : t.sp = s.sp :=
  (congrArg State.sp (next_unique h (exec_replace_stack h s.stack s.sp hcall hret)) :)

theorem exec_stack (hcall : ∀ nnn, i ≠ .call nnn) : t.stack = s.stack := by
  by_cases hret : i = .ret
  · subst hret
    rw [exec_ret] at h
    split at h <;> cases h <;> rfl
  · exact (congrArg State.stack (next_unique h (exec_replace_stack h s.stack s.sp hcall hret)) :)

theorem exec_dt (hdt : ∀ x, i ≠ .ldDtVx x) : t.dt = s.dt := by
  by_cases hreads : ∃ x, i = .ldVxDt x
  · obtain ⟨x, rfl⟩ := hreads
    cases h; rfl
  · have hself := exec_replace_dt h s.dt fun x => ⟨hdt x, fun hx => hreads ⟨x, hx⟩⟩
    exact (congrArg State.dt (next_unique h hself) :)

theorem exec_st (hst : ∀ x, i ≠ .ldStVx x) : t.st = s.st :=
  (congrArg State.st (next_unique h (exec_replace_st h s.st hst)) :)

theorem exec_schedule : t.schedule = s.schedule :=
  (congrArg State.schedule (next_unique h (exec_replace_schedule h s.schedule)) :)

end

/-- Settles O24: memory passes unread through all but the four instructions, of which FX65 and DXYN write none. -/
theorem onlyTheMemoryInstructionsTouchMemory : Obligations.OnlyTheMemoryInstructionsTouchMemory :=
  ⟨fun _ _ _ h hmem a => State.readMem_congr (exec_mem h hmem) a,
    fun _ _ _ m h hmem hdrw => exec_replace_mem h m hmem hdrw⟩

/-- Settles O25: the buffer passes unread through every instruction but 00E0, which replaces it, and DXYN. -/
theorem onlyClearAndDrawTouchTheScreen : Obligations.OnlyClearAndDrawTouchTheScreen := by
  refine ⟨fun i s t h hcls hdrw x y => ?_, fun i s t p h hcls hdrw => exec_replace_pix h p hcls hdrw, fun s t p h => h⟩
  unfold State.pixel
  rw [exec_pix h hcls hdrw]

/-- 2NNN writes the entry at SP only (R29, R143). -/
theorem exec_call_stack_other {nnn : Addr12} {s t : State} (h : exec (.call nnn) s = .next t) {k : Fin 16}
    (hk : k.val ≠ s.sp.val) : t.stack[k] = s.stack[k] := by
  rw [exec_call] at h
  split at h <;> cases h
  · simp [hk.symm]
  · rfl

/-- What 2NNN does depends on the entries only in that the others stay (R143). -/
theorem exec_call_replace_entries {nnn : Addr12} {s t : State} (h : exec (.call nnn) s = .next t)
    (entries : Vector Word 16) :
    ∃ u, exec (.call nnn) { s with stack := entries } = .next u ∧ u = { t with stack := u.stack } ∧
      ∀ hlt : s.sp.val < 16, u.stack[s.sp.val] = t.stack[s.sp.val] := by
  rw [exec_call] at h ⊢
  split at h <;> cases h
  case isTrue hlt =>
    refine ⟨_, dif_pos hlt, rfl, fun _ => ?_⟩
    simp
  case isFalse hfull => exact ⟨_, dif_neg hfull, rfl, fun hlt => absurd hlt hfull⟩

/-- Settles O26: SP and the entries pass unread through all but 2NNN and 00EE; 00EE keeps the entries, 2NNN writes one. -/
theorem onlyCallAndReturnTouchTheStack : Obligations.OnlyCallAndReturnTouchTheStack := by
  refine ⟨fun i s t h => ⟨exec_sp h, fun hcall k => by rw [exec_stack h hcall], fun k hk => ?_⟩,
    fun i s t entries depth h hcall hret => exec_replace_stack h entries depth hcall hret,
    fun nnn s t entries h => exec_call_replace_entries h entries⟩
  by_cases hcall : ∃ nnn, i = .call nnn
  · obtain ⟨nnn, rfl⟩ := hcall
    exact exec_call_stack_other h hk
  · rw [exec_stack h (not_exists.1 hcall)]

/-- Settles O27: each timer passes unread through all but its own instructions; FX15 and FX18 do not read the old value. -/
theorem timersBelongToTheirInstructions : Obligations.TimersBelongToTheirInstructions := by
  refine ⟨fun i s t h => ⟨exec_dt h, exec_st h⟩,
    fun i s t b h => ⟨exec_replace_st h b, ?_, ?_, exec_replace_dt h b⟩⟩
  · rintro x rfl; exact h
  · rintro x rfl; exact h

/-- Settles O29: on every path of every other instruction I is the old I. -/
theorem indexChangesOnlyWhereNamed : Obligations.IndexChangesOnlyWhereNamed := by
  intro i s t h hi
  cases i
  case ldINnn nnn => exact .inl ⟨nnn, rfl⟩
  case addIVx x | ldFVx x | ldMemVx x | ldVxMem x => exact .inr ⟨x, by simp⟩
  case ret | call | ldVxK | drwVxVyN | ldBVx =>
    simp only [exec_ret, exec_call, exec_ldVxK, exec_drwVxVyN, exec_ldBVx] at h
    split at h <;> cases h <;> exact absurd rfl hi
  all_goals cases h; exact absurd rfl hi

/-! ## Registers -/

theorem eq_of_readV_writeV_ne {s : State} {r x : Reg} {b : Byte} (h : (s.writeV x b).readV r ≠ s.readV r) : r = x := by
  by_contra hne
  exact h (s.readV_writeV_other b hne)

theorem eq_of_readV_writeFlagThenResult_ne {s : State} {r x : Reg} {flag result : Byte}
    (h : (s.writeFlagThenResult x flag result).readV r ≠ s.readV r) : r = x ∨ r = 15 := by
  by_contra hne
  rw [not_or] at hne
  exact h (s.readV_writeFlagThenResult_other flag result hne.1 hne.2)

/-- FX65 loads the registers up to V[x] (R185). -/
theorem readV_writeRegsFrom_readBlock_upTo (s : State) (base : Nat) {x r : Reg} (h : r ≤ x) :
    (s.writeRegsFrom 0 (s.readBlock base (x.val + 1))).readV r = s.readMem (base + r.val) := by
  rw [State.readV_writeRegsFrom_inside _ 0 _ (by simp) r (by omega) (by simpa using Nat.lt_succ_of_le h),
    State.getElem_readBlock]
  rfl

/-- FX65 leaves the registers above V[x] alone (R185). -/
theorem readV_writeRegsFrom_readBlock_above (s : State) (base : Nat) {x r : Reg} (h : x < r) :
    (s.writeRegsFrom 0 (s.readBlock base (x.val + 1))).readV r = s.readV r :=
  State.readV_writeRegsFrom_outside _ 0 _ (by simp) (by simpa using h)

/-- Settles O28: a write of one register, of flag and result, or of a block from V[0] changes no other register. -/
theorem registersChangeOnlyWhereNamed : Obligations.RegistersChangeOnlyWhereNamed := by
  intro i s t r h hr
  cases i
  case ldVxNn | addVxNn | rndVxNn | ldVxVy | orVxVy | andVxVy | xorVxVy | ldVxDt =>
    cases h
    obtain rfl := eq_of_readV_writeV_ne hr
    simp
  case addVxVy | subVxVy | shrVx | subnVxVy | shlVx =>
    cases h
    obtain rfl | rfl := eq_of_readV_writeFlagThenResult_ne hr <;> simp
  case ldVxK =>
    rw [exec_ldVxK] at h
    split at h <;> cases h
    · exact absurd rfl hr
    · obtain rfl := eq_of_readV_writeV_ne hr
      simp
  case drwVxVyN =>
    rw [exec_drwVxVyN] at h
    split at h <;> cases h
    · obtain rfl := eq_of_readV_writeV_ne (b := flagByte _) hr
      simp [regF]
    · exact absurd rfl hr
  case ldVxMem x =>
    obtain ⟨-, hload⟩ | ⟨-, hraise⟩ := execLdVxMem_cases x s
    · obtain rfl := next_unique h hload
      have hle : r ≤ x := not_lt.1 fun hlt => hr (readV_writeRegsFrom_readBlock_above s s.i.toNat hlt)
      simp [hle]
    · obtain rfl := next_unique h hraise
      exact absurd rfl hr
  case ret | call | ldBVx | ldMemVx =>
    simp only [exec_ret, exec_call, exec_ldBVx, exec_ldMemVx] at h
    split at h <;> cases h <;> exact absurd rfl hr
  all_goals cases h; exact absurd rfl hr

end Sys2Proof.Proofs
end

section
/-! The step cycle: spec/40_step_cycle.md R120 to R130. -/

namespace Sys2Proof.Proofs

open Sys2Proof Sys2Proof.Machine

/-! ## Delivery of the host's events (R129) -/

/-- Host events count no timer of a halted machine (R128). -/
theorem foldl_apply_timers_of_halt (events : List HostEvent) {s : State} (hs : s.halt = true) :
    (events.foldl HostEvent.apply s).dt = s.dt ∧ (events.foldl HostEvent.apply s).st = s.st := by
  induction events generalizing s with
  | nil => exact ⟨rfl, rfl⟩
  | cons e events ih =>
    cases e with
    | tick =>
      have htick : s.tick = s := by rw [State.tick, if_pos hs]
      rw [List.foldl_cons, HostEvent.apply, htick]
      exact ih hs
    | keys k => exact ih (s := s.setKeys k) hs

theorem deliver_of_schedule_nil {s : State} (hs : s.schedule = []) : s.deliver = s := by
  rw [State.deliver, hs]

theorem deliver_of_schedule_cons {s : State} {events : List HostEvent} {later : List (List HostEvent)}
    (hs : s.schedule = events :: later) : s.deliver = events.foldl HostEvent.apply { s with schedule := later } := by
  rw [State.deliver, hs]

/-- Settles O7: the delivery is the fold of the first group of the schedule, of which each event touches keys and timers
only. -/
theorem hostEventsKeepTheProgramState : Obligations.HostEventsKeepTheProgramState := by
  intro s
  refine ⟨?_, deliver_of_schedule_nil, fun hhalt => ?_⟩ <;> cases hs : s.schedule
  case refine_1.nil => exact ⟨s.keys, s.dt, s.st, by rw [deliver_of_schedule_nil hs, List.tail_nil, ← hs]⟩
  case refine_1.cons events later =>
    rw [deliver_of_schedule_cons hs]
    exact foldl_apply_same events { s with schedule := later }
  case refine_2.nil => rw [deliver_of_schedule_nil hs]; exact ⟨rfl, rfl⟩
  case refine_2.cons events later =>
    rw [deliver_of_schedule_cons hs]
    exact foldl_apply_timers_of_halt events (s := { s with schedule := later }) hhalt

/-- What the delivery leaves is the state with keys, timers and schedule replaced. -/
theorem deliver_eq (s : State) : s.deliver = { s with
    keys := s.deliver.keys, dt := s.deliver.dt, st := s.deliver.st, schedule := s.schedule.tail } := by
  obtain ⟨⟨k, d, e, h⟩, -⟩ := hostEventsKeepTheProgramState s
  rw [h]

section
variable (s : State)

@[simp] theorem deliver_v : s.deliver.v = s.v := by rw [deliver_eq]
@[simp] theorem deliver_i : s.deliver.i = s.i := by rw [deliver_eq]
@[simp] theorem deliver_pc : s.deliver.pc = s.pc := by rw [deliver_eq]
@[simp] theorem deliver_stack : s.deliver.stack = s.stack := by rw [deliver_eq]
@[simp] theorem deliver_sp : s.deliver.sp = s.sp := by rw [deliver_eq]
@[simp] theorem deliver_mem : s.deliver.mem = s.mem := by rw [deliver_eq]
@[simp] theorem deliver_wait : s.deliver.wait = s.wait := by rw [deliver_eq]
@[simp] theorem deliver_halt : s.deliver.halt = s.halt := by rw [deliver_eq]
@[simp] theorem deliver_cause : s.deliver.cause = s.cause := by rw [deliver_eq]
@[simp] theorem deliver_info : s.deliver.info = s.info := by rw [deliver_eq]
@[simp] theorem deliver_outcome : s.deliver.outcome = s.outcome := by rw [deliver_eq]
@[simp] theorem deliver_fetchInRange : s.deliver.fetchInRange = s.fetchInRange := by
  rw [State.fetchInRange, deliver_pc, State.fetchInRange]
@[simp] theorem deliver_fetchWord : s.deliver.fetchWord = s.fetchWord := by
  simp only [State.fetchWord, deliver_pc, State.readMem, deliver_mem]

end

/-! ## One step by what stands at PC (R120) -/

theorem fetchInRange_iff (s : State) : s.fetchInRange = true ↔ s.pc.toNat ≤ 4094 := by
  simp [State.fetchInRange]

/-- A machine that runs and can fetch an instruction executes it. -/
theorem coreStep_of_decodeWord {s : State} {i : Instr} (hrun : s.halt = false) (hpc : s.pc.toNat ≤ 4094)
    (hdec : decodeWord s.fetchWord = .ok i) : coreStep s = exec i s := by
  rw [coreStep, hrun, (fetchInRange_iff s).2 hpc, State.decode_fetchBytes, hdec]
  rfl

/-- Settles O6: the delivery keeps HALT, PC and memory, so that the event step fetches the same word. -/
theorem stepRunsTheDecodedInstruction : Obligations.StepRunsTheDecodedInstruction := by
  intro s i hrun hpc hdec
  rw [step]
  exact coreStep_of_decodeWord (by rwa [deliver_halt]) (by rwa [deliver_pc]) (by rw [deliver_fetchWord]; exact hdec)

theorem coreStep_of_decodeWord_error {s : State} {e : DecodeError} (hrun : s.halt = false) (hpc : s.pc.toNat ≤ 4094)
    (hdec : decodeWord s.fetchWord = .error e) : coreStep s = s.undefinedNoop s.fetchWord := by
  rw [coreStep, hrun, (fetchInRange_iff s).2 hpc, State.decode_fetchBytes, hdec]
  rfl

/-- Settles O8: the checks before decoding pass, and the word is rejected. -/
theorem undefinedWordIsANoop : Obligations.UndefinedWordIsANoop :=
  fun _ _ hrun hpc hdec => coreStep_of_decodeWord_error hrun hpc hdec

/-- Settles O9: the check of the fetch range fails. -/
theorem fetchOutOfRangeHalts : Obligations.FetchOutOfRangeHalts := by
  intro s hrun hpc
  have hrange : s.fetchInRange = false := by
    rw [← Bool.not_eq_true, fetchInRange_iff]
    omega
  rw [coreStep, hrun, hrange]
  rfl

/-- Settles O16: each way of a step is a next state. -/
theorem everyStepAnswersNext : Obligations.EveryStepAnswersNext := by
  intro s
  rw [step]
  obtain ⟨-, h⟩ | ⟨-, -, h⟩ | ⟨-, -, e, -, h⟩ | ⟨-, -, i, -, h⟩ := coreStep_cases s.deliver <;> rw [h]
  · exact ⟨_, rfl⟩
  · exact ⟨_, rfl⟩
  · exact ⟨_, rfl⟩
  · obtain ⟨t, h, -⟩ | ⟨-, h⟩ | ⟨-, c, n, -, h⟩ := exec_ends i s.deliver <;> exact ⟨_, h⟩

theorem toNat_countDown : ∀ b : Byte, (countDown b).toNat = b.toNat - 1 := by decide

theorem tick_of_running {s : State} (hs : s.halt = false) :
    s.tick = { s with dt := countDown s.dt, st := countDown s.st } := by
  rw [State.tick, if_neg (by rw [hs]; decide)]

/-- Settles O11: a halted tick is the identity, a running one writes the two timers only. -/
theorem tickCountsBothTimersDown : Obligations.TickCountsBothTimersDown := by
  intro s
  refine ⟨fun hs => by rw [State.tick, if_pos hs], fun hs => ?_⟩
  rw [tick_of_running hs]
  exact ⟨toNat_countDown s.dt, toNat_countDown s.st, ⟨fun _ _ => rfl, fun _ => rfl, fun _ => ⟨rfl, fun _ => rfl⟩,
    by simp, by simp, fun _ _ => rfl, fun _ _ _ => rfl, fun _ => rfl, rfl, rfl, rfl, rfl, rfl⟩, rfl, rfl, rfl⟩

/-! ## Runs -/

theorem run_succ_of_next {M : Host.Core} {s t : M.State} (h : M.step s = .next t) (n : Nat) :
    M.run (n + 1) s = M.run n t := by
  rw [Host.Core.run, h]

theorem run_succ {s t : State} (h : step s = .next t) (n : Nat) :
    Sys2Proof.core.run (n + 1) s = Sys2Proof.core.run n t :=
  run_succ_of_next (M := Sys2Proof.core) h n

/-- A step of a halted machine changes no more than keys, schedule and outcome (R128). -/
theorem step_of_halt {s : State} (hs : s.halt = true) : step s = .next { s with
    keys := s.deliver.keys, schedule := s.deliver.schedule, outcome := .fatal s.cause s.info } := by
  obtain ⟨⟨k, d, e, hdeliver⟩, -, htimers⟩ := hostEventsKeepTheProgramState s
  obtain ⟨hdt, hst⟩ := htimers hs
  rw [hdeliver] at hdt hst
  subst hdt hst
  rw [step, coreStep, deliver_halt, if_pos hs, hdeliver]
  rfl

/-- Settles O10: by induction on the number of steps. -/
theorem haltedMachineStaysAsItIs : Obligations.HaltedMachineStaysAsItIs := by
  intro n
  induction n with
  | zero => exact fun s hs => ⟨_, run_succ (step_of_halt hs) 0, rfl⟩
  | succ n ih =>
    intro s hs
    obtain ⟨t, hrun, ht⟩ := ih { s with
      keys := s.deliver.keys, schedule := s.deliver.schedule, outcome := .fatal s.cause s.info } hs
    exact ⟨t, (run_succ (step_of_halt hs) (n + 1)).trans hrun, ht⟩

/-- A step at a jump to itself runs the jump, which comes back to it (R130). -/
theorem step_of_atSelfJump {s : State} (hs : s.atSelfJump) : ∃ t, step s = .next t ∧ t.atSelfJump ∧ t = { s with
    dt := t.dt, st := t.st, keys := t.keys, wait := t.wait, outcome := t.outcome, schedule := t.schedule } := by
  obtain ⟨hrun, hrange, nnn, hdec, hnnn⟩ := hs
  have hstep := stepRunsTheDecodedInstruction s (.jp nnn) hrun ((fetchInRange_iff s).1 hrange) hdec
  have hself : exec (.jp nnn) s.deliver = .next { s with
      keys := s.deliver.keys, dt := s.deliver.dt, st := s.deliver.st, schedule := s.schedule.tail,
      wait := false, outcome := .continued } := by
    rw [deliver_eq]
    change State.finishAt _ _ = _
    rw [State.finishAt_eq, hnnn]
  exact ⟨_, hstep.trans hself, ⟨hrun, hrange, nnn, hdec, hnnn⟩, rfl⟩

/-- Settles O31: by induction on the number of steps. -/
theorem selfJumpIsAFixedPoint : Obligations.SelfJumpIsAFixedPoint := by
  intro n
  induction n with
  | zero => exact fun s hs => ⟨s, rfl, hs, rfl⟩
  | succ n ih =>
    intro s hs
    obtain ⟨u, hstep, hu, hsame⟩ := step_of_atSelfJump hs
    obtain ⟨t, hrun, ht, hsame'⟩ := ih u hu
    rw [hsame] at hsame'
    exact ⟨t, (run_succ hstep n).trans hrun, ht, hsame'⟩

/-! ## The schedule as a sequence of events (R7, R129) -/

/-- Host events neither read the schedule nor change it. -/
theorem foldl_apply_replace_schedule (events : List HostEvent) (s : State) (l : List (List HostEvent)) :
    events.foldl HostEvent.apply { s with schedule := l } =
      { events.foldl HostEvent.apply s with schedule := l } := by
  induction events generalizing s with
  | nil => rfl
  | cons e events ih =>
    have happly : HostEvent.apply { s with schedule := l } e = { HostEvent.apply s e with schedule := l } := by
      cases e with
      | tick =>
        simp only [HostEvent.apply, State.tick]
        split <;> rfl
      | keys k => rfl
    rw [List.foldl_cons, happly, ih, List.foldl_cons]

theorem coreStep_replace_schedule {s t : State} (h : coreStep s = .next t) (l : List (List HostEvent)) :
    coreStep { s with schedule := l } = .next { t with schedule := l } := by
  rw [coreStep] at h ⊢
  refine next_of_ite h (by rintro ⟨⟩; rfl) fun h => next_of_ite h (fun h => ?_) (by rintro ⟨⟩; rfl)
  change (match decode s.fetchBytes with
    | .ok (i, _) => exec i { s with schedule := l }
    | .error _ => State.undefinedNoop { s with schedule := l } s.fetchWord) = _
  cases hdec : decode s.fetchBytes with
  | ok d => rw [hdec] at h; exact exec_replace_schedule h l
  | error e => rw [hdec] at h; cases h; rfl

theorem coreStep_schedule {s t : State} (h : coreStep s = .next t) : t.schedule = s.schedule :=
  (congrArg State.schedule (next_unique h (coreStep_replace_schedule h s.schedule)) :)

/-- A group of host events is the sequence of their events. -/
theorem runEvents_map_toEvent (events : List HostEvent) (s : State) :
    runEvents (events.map HostEvent.toEvent) s = .next (events.foldl HostEvent.apply s) := by
  induction events generalizing s with
  | nil => rfl
  | cons e events ih => cases e <;> exact ih _

/-- Settles O15: by induction on the schedule; each step performs its group of events and then the event step, neither of
which reads the groups left. -/
theorem runIsTheScheduledEventSequence : Obligations.RunIsTheScheduledEventSequence := by
  intro s
  generalize hl : s.schedule = l
  induction l generalizing s with
  | nil =>
    have hself : { s with schedule := [] } = s := by rw [← hl]
    exact congrArg Host.Outcome.next hself.symm
  | cons events later ih =>
    obtain ⟨t, hstep⟩ := everyStepAnswersNext s
    have hcore : coreStep { events.foldl HostEvent.apply s with schedule := later } = .next t := by
      rwa [← foldl_apply_replace_schedule, ← deliver_of_schedule_cons hl]
    have hlater : t.schedule = later := coreStep_schedule hcore
    have hcoreNil := coreStep_replace_schedule hcore []
    rw [List.length_cons, run_succ hstep, ih t hlater, List.flatMap_cons, List.append_assoc, runEvents_append,
      runEvents_map_toEvent, foldl_apply_replace_schedule]
    simp only [List.singleton_append, runEvents, Event.apply]
    rw [hcoreNil]

end Sys2Proof.Proofs
end

section
/-! The invariants: spec/10_state.md R35, R36, R41 and the canonical form of memory. -/

namespace Sys2Proof.Proofs

open Sys2Proof Sys2Proof.Machine

/-- Settles O17: at reset I is 0, PC 0x200, the stack empty, nothing set and no byte listed. -/
theorem invariantsHoldAtReset : Obligations.InvariantsHoldAtReset := by
  refine ⟨⟨?_, ?_, ?_⟩, ⟨?_, ?_⟩, ⟨?_, ?_⟩, rfl⟩
  · decide
  · decide
  · exact fun k hk => absurd hk (Nat.not_lt_zero _)
  · simp [State.reset]
  · exact fun h => absurd h (by decide)
  · exact fun h => absurd h (by decide)
  · exact fun _ => ⟨rfl, rfl, by simp [State.reset]⟩

/-! ## Ranges (R41) -/

section
variable {i : Instr} {s t : State} (h : exec i s = .next t)
include h

/-- Every write of I is a number below 4096 (R24). -/
theorem exec_index_le (hi : s.i.toNat ≤ 0xFFF) : t.i.toNat ≤ 0xFFF := by
  by_cases hsame : t.i = s.i
  · rwa [hsame]
  have hplus : ∀ k, (indexPlus s.i k).toNat ≤ 0xFFF := fun k => by rw [toNat_indexPlus]; omega
  obtain ⟨nnn, rfl⟩ | ⟨x, rfl | rfl | rfl | rfl⟩ := indexChangesOnlyWhereNamed i s t h hsame
  · cases h
    rw [toNat_zext16]
    omega
  · cases h; exact hplus _
  · cases h
    have := fontBase_le
    rw [toNat_glyphAddress]
    omega
  all_goals
    simp only [exec_ldMemVx, exec_ldVxMem] at h
    split at h <;> cases h
    · exact hplus _
    · exact hi

/-- The farthest an instruction can take PC: past the last word, by a skip, or to nnn + V[0] (R26, R148). -/
theorem exec_pc_le (hpc : s.pc.toNat ≤ 4094)
    (hstack : ∀ k : Fin 16, k.val < s.sp.val → s.stack[k].toNat ≤ 4096) : t.pc.toNat ≤ 0x10FE := by
  have h0 : s.pc.toNat ≤ 0x10FE := by omega
  have h2 : (s.pc + 2).toNat ≤ 0x10FE := by rw [BitVec.toNat_add]; simp; omega
  have h4 : (s.pc + 2 + 2).toNat ≤ 0x10FE := by simp only [BitVec.toNat_add]; simp; omega
  cases i
  case jp nnn => cases h; rw [toNat_zext16]; omega
  case jpV0Nnn nnn =>
    cases h
    rw [BitVec.toNat_add, toNat_zext16, BitVec.toNat_setWidth]
    omega
  case call nnn =>
    rw [exec_call] at h
    split at h <;> cases h
    · rw [toNat_zext16]; omega
    · exact h0
  case ret =>
    rw [exec_ret] at h
    split at h <;> cases h
    · exact h0
    · have := hstack ⟨s.sp.val - 1, by omega⟩ (by simp only; omega)
      exact this.trans (by decide)
  case seVxNn | sneVxNn | seVxVy | sneVxVy | skpVx | sknpVx =>
    cases h
    simp only
    split <;> assumption
  case ldVxK =>
    rw [exec_ldVxK] at h
    split at h <;> cases h
    · exact h0
    · exact h2
  case ldBVx | ldMemVx | ldVxMem | drwVxVyN =>
    simp only [exec_ldBVx, exec_ldMemVx, exec_ldVxMem, exec_drwVxVyN] at h
    split at h <;> cases h
    · exact h2
    · exact h0
  all_goals cases h; exact h2

/-- The return address of a call is the address after an instruction that was fetched (R29, R143). -/
theorem exec_stack_range (hpc : s.pc.toNat ≤ 4094)
    (hstack : ∀ k : Fin 16, k.val < s.sp.val → 2 ≤ s.stack[k].toNat ∧ s.stack[k].toNat ≤ 4096) :
    ∀ k : Fin 16, k.val < t.sp.val → 2 ≤ t.stack[k].toNat ∧ t.stack[k].toNat ≤ 4096 := by
  by_cases hcall : ∃ nnn, i = .call nnn
  · obtain ⟨nnn, rfl⟩ := hcall
    rw [exec_call] at h
    split at h
    case isFalse => cases h; exact hstack
    cases h
    intro k hk
    by_cases hks : s.sp.val = k.val
    · have hnext : (s.pc + 2).toNat = s.pc.toNat + 2 := by rw [BitVec.toNat_add]; simp; omega
      simp only [hks, Fin.getElem_fin, Vector.getElem_set_self, hnext]
      omega
    · simp only [Fin.getElem_fin, Vector.getElem_set_ne _ _ hks]
      exact hstack k (by simp only at hk; omega)
  · rw [not_exists] at hcall
    intro k hk
    rw [exec_stack h hcall]
    refine hstack k ?_
    by_cases hret : i = .ret
    · subst hret
      rw [exec_ret] at h
      split at h <;> cases h
      · exact hk
      · simp only at hk; omega
    · rwa [← exec_sp h hcall hret]

end

theorem rangesHold_deliver {s : State} (hs : RangesHold s) : RangesHold s.deliver := by
  simpa [RangesHold] using hs

/-- Settles O18: PC and I are bounded after every instruction that was fetched; a fetch out of range and an undefined word
leave I and the stack. -/
theorem everyStepKeepsTheRanges : Obligations.EveryStepKeepsTheRanges := by
  intro s t hs hstep
  refine step_keeps hstep (rangesHold_deliver hs) (fun u _ hu => hu) (fun u _ _ hu => hu) ?_ ?_
  · rintro u e - hpc - ⟨hi, -, hstack⟩
    refine ⟨hi, ?_, hstack⟩
    rw [BitVec.toNat_add]
    simp
    omega
  · rintro u i t - hpc - ⟨hi, -, hstack⟩ hexec
    exact ⟨exec_index_le hexec hi, exec_pc_le hexec hpc fun k hk => (hstack k hk).2, exec_stack_range hexec hpc hstack⟩

/-! ## WAIT and the latch (R35, R36) -/

theorem waitAgrees_of_wait_false {t : State} (hw : t.wait = false) (ho : t.outcome ≠ .blocked) : WaitAgrees t := by
  simp [WaitAgrees, hw, ho]

/-- Settles O19: WAIT is set by the blocked end of FX0A only; a waiting machine fetches that FX0A again, so that no other
step meets a set WAIT. -/
theorem everyStepKeepsWaitAndBlockedTogether : Obligations.EveryStepKeepsWaitAndBlockedTogether := by
  intro s t hs hstep
  have hdeliver : WaitAgrees s.deliver := by simpa [WaitAgrees] using hs
  refine step_keeps hstep hdeliver ?_ ?_ ?_ ?_
  · rintro u hhalt ⟨-, hu⟩
    refine waitAgrees_of_wait_false (Bool.eq_false_iff.2 fun hw => ?_) (by simp)
    exact absurd hhalt (by simp [(hu hw).1])
  · rintro u - hpc ⟨-, hu⟩
    refine waitAgrees_of_wait_false (Bool.eq_false_iff.2 fun hw => ?_) (by simp)
    have hrange := (fetchInRange_iff u).1 (hu hw).2.1
    omega
  · exact fun u e _ _ _ _ => waitAgrees_of_wait_false rfl (by simp)
  · rintro u i t hrun hpc hdec ⟨-, hu⟩ hexec
    obtain ⟨u', hend, hw, ho, -⟩ | ⟨⟨x, rfl⟩, hend⟩ | ⟨hother, c, n, -, hend⟩ := exec_ends i u
    · obtain rfl := next_unique hexec hend
      exact waitAgrees_of_wait_false hw (by simp [ho])
    · obtain rfl := next_unique hexec hend
      exact ⟨by simp, fun _ => ⟨hrun, (fetchInRange_iff u).2 hpc, x, hdec⟩⟩
    · obtain rfl := next_unique hexec hend
      refine waitAgrees_of_wait_false (Bool.eq_false_iff.2 fun hw => ?_) (by simp)
      obtain ⟨-, -, x, hx⟩ := hu hw
      exact hother x (Except.ok.inj (hdec.symm.trans hx))

/-- Settles O20: an error is latched as it is raised, a halted step answers it again, and no other end of an instruction
touches HALT, CAUSE and INFO. -/
theorem everyStepKeepsTheErrorLatch : Obligations.EveryStepKeepsTheErrorLatch := by
  intro s t hs hstep
  have hdeliver : LatchAgrees s.deliver := by simpa [LatchAgrees] using hs
  refine step_keeps hstep hdeliver ?_ ?_ ?_ ?_
  · rintro u hhalt ⟨hu, -⟩
    exact ⟨fun _ => ⟨rfl, (hu hhalt).2⟩, fun hrun => absurd hhalt (by simpa using hrun)⟩
  · exact fun u _ _ _ => ⟨fun _ => ⟨rfl, by simp⟩, by simp⟩
  · rintro u e hrun - - ⟨-, hu⟩
    obtain ⟨hcause, hinfo, -⟩ := hu hrun
    exact ⟨fun hhalt => absurd hhalt (by simp [hrun]), fun _ => ⟨hcause, hinfo, by simp⟩⟩
  · rintro u i t hrun - - ⟨-, hu⟩ hexec
    obtain ⟨hcause, hinfo, -⟩ := hu hrun
    obtain ⟨u', hend, -, ho, hhalt', hcause', hinfo', -⟩ | ⟨-, hend⟩ | ⟨-, c, n, hc, hend⟩ := exec_ends i u
    · obtain rfl := next_unique hexec hend
      simp [LatchAgrees, hhalt', hrun, hcause', hcause, hinfo', hinfo, ho]
    · obtain rfl := next_unique hexec hend
      simp [LatchAgrees, hrun, hcause, hinfo]
    · obtain rfl := next_unique hexec hend
      exact ⟨fun _ => ⟨rfl, hc⟩, by simp⟩

/-! ## The canonical form of memory (R60) -/

theorem exec_mem_wf {i : Instr} {s t : State} (h : exec i s = .next t) (hs : s.mem.wf = true) : t.mem.wf = true := by
  by_cases hstores : ∃ x, i = .ldBVx x ∨ i = .ldMemVx x
  · obtain ⟨x, rfl | rfl⟩ := hstores
    · obtain ⟨hin, hstore⟩ | ⟨-, hraise⟩ := execLdBVx_cases x s
      · obtain rfl := next_unique h hstore
        exact State.wf_writeBlock s _ _ hs (.inl hin)
      · obtain rfl := next_unique h hraise
        exact hs
    · obtain ⟨hin, hstore⟩ | ⟨-, hraise⟩ := execLdMemVx_cases x s
      · obtain rfl := next_unique h hstore
        exact State.wf_writeBlock s _ _ hs (.inl (by rwa [State.length_readRegsTo]))
      · obtain rfl := next_unique h hraise
        exact hs
  · have hmem : ∀ x, i ≠ .ldBVx x ∧ i ≠ .ldMemVx x := by simpa using hstores
    rwa [exec_mem h hmem]

/-- Settles O21: only FX33 and FX55 write memory, and only a block that is in range. -/
theorem everyStepKeepsTheMemoryForm : Obligations.EveryStepKeepsTheMemoryForm := by
  intro s t hs hstep
  have hdeliver : s.deliver.mem.wf = true := by rwa [deliver_mem]
  exact step_keeps (P := fun u => u.mem.wf = true) hstep hdeliver (fun _ _ hu => hu) (fun _ _ _ hu => hu)
    (fun _ _ _ _ _ hu => hu) fun _ _ _ _ _ _ hu hexec => exec_mem_wf hexec hu

/-- An address of a canonical memory that no entry lists reads as the reset contents. -/
theorem read_of_not_mem {m : Memory} {a : Nat} (h : ∀ c ∈ m, c.1 ≠ a) : m.read a = Memory.unlisted a := by
  induction m with
  | nil => rfl
  | cons c m ih =>
    rw [List.forall_mem_cons] at h
    rw [Memory.read, if_neg h.1, ih h.2]

/-- An address of a memory in rising order reads as its entry. -/
theorem read_of_mem {m : Memory} {a : Nat} {v : Byte} (hm : m.Pairwise fun c d => c.1 < d.1) (h : (a, v) ∈ m) :
    m.read a = v := by
  induction m with
  | nil => exact absurd h List.not_mem_nil
  | cons c m ih =>
    obtain ⟨hc, hm⟩ := List.pairwise_cons.1 hm
    obtain rfl | h := List.mem_cons.1 h
    · rw [Memory.read, if_pos rfl]
    · rw [Memory.read, if_neg (hc _ h).ne, ih hm h]

/-- The entries of a canonical memory are the addresses that read otherwise than after reset. -/
theorem mem_iff_read {m : Memory} (hm : m.wf = true) (c : Host.Cell) :
    c ∈ m ↔ m.read c.1 = c.2 ∧ c.2 ≠ Memory.unlisted c.1 := by
  rw [Memory.wf_iff] at hm
  obtain ⟨hsorted, hlisted⟩ := hm
  refine ⟨fun h => ⟨read_of_mem hsorted h, (hlisted c h).2⟩, fun ⟨hread, hne⟩ => ?_⟩
  by_contra hc
  by_cases hmem : ∃ d ∈ m, d.1 = c.1
  · obtain ⟨d, hd, ha⟩ := hmem
    have hdc : d = c := Prod.ext ha (by rw [← hread, ← ha, read_of_mem hsorted hd])
    exact hc (hdc ▸ hd)
  · exact hne (by rw [← hread, read_of_not_mem fun d hd ha => hmem ⟨d, hd, ha⟩])

/-- Settles O22: two canonical memories with the same reads have the same entries, and both list them in rising order. -/
theorem equalReadsMeanEqualMemories : Obligations.EqualReadsMeanEqualMemories := by
  intro m m' hm hm' hread
  have hsame : ∀ c, c ∈ m ↔ c ∈ m' := fun c => by rw [mem_iff_read hm, mem_iff_read hm', hread]
  have hsorted := ((Memory.wf_iff m).1 hm).1
  have hsorted' := ((Memory.wf_iff m').1 hm').1
  have hnodup : ∀ {l : Memory}, l.Pairwise (fun c d => c.1 < d.1) → l.Nodup :=
    fun h => h.imp fun hlt heq => hlt.ne (congrArg Prod.fst heq)
  have hperm : m.Perm m' := (List.perm_ext_iff_of_nodup (hnodup hsorted) (hnodup hsorted')).2 hsame
  exact hperm.eq_of_pairwise (fun a b _ _ hab hba => absurd hab (lt_asymm hba)) hsorted hsorted'

end Sys2Proof.Proofs
end

section
/-! The control transfers: spec/41_control_transfer.md R140 to R148. -/

namespace Sys2Proof.Proofs

open Sys2Proof Sys2Proof.Machine

/-- What holds of the state an instruction completes in may be weakened. -/
theorem completes_imp {i : Instr} {s : State} {P Q : State → Prop} (h : Completes i s P) (hPQ : ∀ t, P t → Q t) :
    Completes i s Q := by
  obtain ⟨t, hexec, hwait, houtcome, hP⟩ := h
  exact ⟨t, hexec, hwait, houtcome, hPQ t hP⟩

/-- A frame says nothing of the registers it names. -/
theorem frame_setV {changed : List Part} {regs : List Reg} {s t : State} (h : Frame changed [] s t)
    (v : Vector Byte 16) (hv : ∀ r : Reg, r ∉ regs → State.readV { t with v := v } r = s.readV r) :
    Frame changed regs s { t with v := v } := by
  obtain ⟨-, hparts⟩ := h
  exact ⟨hv, hparts⟩

/-- Replacing the stack and ending at any PC leaves everything else as it was (R29, R120). -/
theorem frame_setStack_setPc (s : State) (entries : Vector Word 16) (depth : Fin 17) (a : Word) :
    Frame [.stack] [] s
      { s with stack := entries, sp := depth, pc := a, wait := false, outcome := .continued } :=
  ⟨fun _ _ => rfl, fun _ => rfl, fun hstack => absurd (List.mem_singleton_self _) hstack, fun _ => rfl, fun _ => rfl,
    fun _ _ => rfl, fun _ _ _ => rfl, fun _ => rfl, rfl, rfl, rfl, rfl, rfl⟩

/-- An instruction that only ends at a target completes with PC there and nothing else changed (R120). -/
theorem completes_of_exec_eq_finishAt {i : Instr} {s : State} {a : Word} (hexec : exec i s = s.finishAt a) :
    Completes i s fun t => t.pc = a ∧ Frame [] [] s t :=
  ⟨_, hexec, rfl, rfl, rfl, frame_setPc s a⟩

/-- Settles O32: 0NNN only ends at npc. -/
theorem sysOnlyAdvances : Obligations.SysOnlyAdvances :=
  fun _ _ => completes_of_exec_eq_finishAt rfl

/-- Settles O33: 1NNN only ends at zext_16(nnn), which is the same number. -/
theorem jumpSetsPc : Obligations.JumpSetsPc :=
  fun nnn s => completes_imp (completes_of_exec_eq_finishAt (i := .jp nnn) (s := s) rfl)
    fun _ ⟨hpc, hframe⟩ => ⟨by rw [hpc, toNat_zext16], hframe⟩

/-- Settles O34: a 12-bit and an 8-bit number have a 16-bit sum. -/
theorem offsetJumpAddsV0 : Obligations.OffsetJumpAddsV0 := by
  refine fun nnn s => completes_imp (completes_of_exec_eq_finishAt (i := .jpV0Nnn nnn) (s := s) rfl)
    fun t ⟨hpc, hframe⟩ => ⟨?_, hframe⟩
  rw [hpc, BitVec.toNat_add, toNat_zext16, BitVec.toNat_setWidth]
  omega

/-- Settles O35: below the limit a call is a write of the entry at SP. -/
theorem callPushesTheNextAddress : Obligations.CallPushesTheNextAddress := by
  intro nnn s h
  refine ⟨_, State.callTo_of_lt s _ h, rfl, rfl, ?_, fun k hk => ?_, rfl, toNat_zext16 nnn, frame_setStack_setPc s _ _ _⟩
  · exact Vector.getElem_set_self h
  · exact Vector.getElem_set_ne h k.isLt hk.symm

/-- Settles O36: above depth 0 a return only moves SP and PC. -/
theorem returnPopsTheAddress : Obligations.ReturnPopsTheAddress :=
  fun s h => ⟨_, State.popReturn_of_pos s h, rfl, rfl, rfl, rfl, fun _ => rfl, frame_setStack_setPc s _ _ _⟩

/-- Settles O37: the two refusals of the stack operations. -/
theorem stackErrorsRaise : Obligations.StackErrorsRaise :=
  ⟨fun _ s h => State.callTo_full s _ h, fun s h => State.popReturn_empty s h⟩

/-- Settles O38: the return pops the entry the call has pushed. -/
theorem callThenReturnComesBack : Obligations.CallThenReturnComesBack := by
  intro nnn s h
  refine ⟨_, _, State.callTo_of_lt s _ h, (exec_ret _).trans (dif_neg (Nat.succ_ne_zero _)), ?_, rfl, fun k hk => ?_,
    frame_setStack_setPc s _ _ _⟩
  · exact Vector.getElem_set_self h
  · exact Vector.getElem_set_ne h k.isLt hk.ne'

end Sys2Proof.Proofs
end

section
/-! The instructions of the ALU: spec/42_alu.md R163 to R171. -/

namespace Sys2Proof.Proofs

open Sys2Proof Sys2Proof.Machine

/-- Settles O43: each of the three is a write of the bitwise result to V[x]. -/
theorem bitwiseInstructions : Obligations.BitwiseInstructions :=
  ⟨fun x y s => completes_imp (completes_of_exec_eq_writeV_finish (i := .orVxVy x y) (s := s) (x := x) rfl)
      fun _ ⟨hv, hrest⟩ => ⟨fun b _ => by rw [hv, BitVec.getLsbD_or], hrest⟩,
    fun x y s => completes_imp (completes_of_exec_eq_writeV_finish (i := .andVxVy x y) (s := s) (x := x) rfl)
      fun _ ⟨hv, hrest⟩ => ⟨fun b _ => by rw [hv, BitVec.getLsbD_and], hrest⟩,
    fun x y s => completes_imp (completes_of_exec_eq_writeV_finish (i := .xorVxVy x y) (s := s) (x := x) rfl)
      fun _ ⟨hv, hrest⟩ => ⟨fun b _ => by rw [hv, BitVec.getLsbD_xor], hrest⟩⟩

/-- An instruction whose meaning is a flag and a result completes with the result in V[x], with the flag in VF unless
the result stands there, and with nothing else but PC changed (R23, R122). -/
theorem completes_of_exec_eq_writeFlagThenResult_finish {i : Instr} {s : State} {x : Reg} {flag result : Byte}
    (hexec : exec i s = (s.writeFlagThenResult x flag result).finish) :
    Completes i s fun t => t.readV x = result ∧ (x ≠ 15 → t.readV 15 = flag) ∧ t.pc = s.pc + 2 ∧
      Frame [] [x, 15] s t := by
  refine ⟨_, hexec, rfl, rfl, s.readV_writeFlagThenResult_result x flag result,
    fun hx => s.readV_writeFlagThenResult_flag flag result hx, rfl,
    frame_setV (frame_setPc s _) _ fun r hr => ?_⟩
  simp only [List.mem_cons, List.not_mem_nil, or_false, not_or] at hr
  exact s.readV_writeFlagThenResult_other flag result hr.1 hr.2

theorem flagByte_decide (p : Prop) [Decidable p] : flagByte (decide p) = if p then 1 else 0 := by
  simp [flagByte]

/-- Settles O44: the result is the 8-bit sum, the flag whether the sum of the numbers exceeds 255. -/
theorem addWithCarry : Obligations.AddWithCarry :=
  fun x y s => completes_imp
    (completes_of_exec_eq_writeFlagThenResult_finish (i := .addVxVy x y) (s := s) (x := x) rfl)
    fun _ ⟨hv, hflag, hrest⟩ => ⟨by rw [hv, BitVec.toNat_add], fun hx => (hflag hx).trans (flagByte_decide _), hrest⟩

theorem toNat_sub_byte (a b : Byte) : (a - b).toNat = (a.toNat + 256 - b.toNat) % 256 := by
  rw [BitVec.toNat_sub]
  omega

/-- Settles O45: both are the 8-bit difference with the comparison as flag, the operands exchanged. -/
theorem subtractWithNoBorrow : Obligations.SubtractWithNoBorrow :=
  ⟨fun x y s => completes_imp
      (completes_of_exec_eq_writeFlagThenResult_finish (i := .subVxVy x y) (s := s) (x := x) rfl)
      fun _ ⟨hv, hflag, hrest⟩ => ⟨by rw [hv, toNat_sub_byte], fun hx => (hflag hx).trans (flagByte_decide _), hrest⟩,
    fun x y s => completes_imp
      (completes_of_exec_eq_writeFlagThenResult_finish (i := .subnVxVy x y) (s := s) (x := x) rfl)
      fun _ ⟨hv, hflag, hrest⟩ => ⟨by rw [hv, toNat_sub_byte], fun hx => (hflag hx).trans (flagByte_decide _), hrest⟩⟩

theorem toNat_shiftedOutRight (a : Byte) : (shiftedOutRight a).toNat = a.toNat % 2 := by
  rw [shiftedOutRight, BitVec.toNat_and]
  exact Nat.and_one_is_mod _

theorem toNat_shiftedOutLeft (a : Byte) : (shiftedOutLeft a).toNat = a.toNat / 128 := by
  rw [shiftedOutLeft, BitVec.toNat_and, BitVec.toNat_ushiftRight, Nat.shiftRight_eq_div_pow]
  refine (Nat.and_one_is_mod _).trans ?_
  omega

/-- Settles O46: a shift by one halves or doubles, and the flag is the lowest or highest bit. -/
theorem shiftsByOne : Obligations.ShiftsByOne := by
  refine ⟨fun x y s => completes_imp
      (completes_of_exec_eq_writeFlagThenResult_finish (i := .shrVx x y) (s := s) (x := x) rfl)
      fun t ⟨hv, hflag, hrest⟩ => ⟨?_, fun hx => by rw [hflag hx, toNat_shiftedOutRight], hrest⟩,
    fun x y s => completes_imp
      (completes_of_exec_eq_writeFlagThenResult_finish (i := .shlVx x y) (s := s) (x := x) rfl)
      fun t ⟨hv, hflag, hrest⟩ => ⟨?_, fun hx => by rw [hflag hx, toNat_shiftedOutLeft], hrest⟩⟩
  · rw [hv, BitVec.toNat_ushiftRight, Nat.shiftRight_eq_div_pow]
  · rw [hv, BitVec.toNat_shiftLeft, Nat.shiftLeft_eq]

/-- Counting a draw and ending at any PC leaves everything else as it was (R34, R120). -/
theorem frame_setDraws_setPc (s : State) (n : Nat) (a : Word) :
    Frame [.draws] [] s { s with draws := n, pc := a, wait := false, outcome := .continued } :=
  ⟨fun _ _ => rfl, fun _ => rfl, fun _ => ⟨rfl, fun _ => rfl⟩, fun _ => rfl, fun _ => rfl,
    fun _ _ => rfl, fun _ _ _ => rfl, fun hdraws => absurd (List.mem_singleton_self _) hdraws, rfl, rfl, rfl, rfl, rfl⟩

/-- An instruction that writes `b` to V[x], counts one draw and takes the default advance changes nothing else. -/
theorem completes_of_exec_eq_writeV_draw_finish {i : Instr} {s : State} {x : Reg} {b : Byte}
    (hexec : exec i s = State.finish { s.writeV x b with draws := s.draws + 1 }) :
    Completes i s fun t => t.readV x = b ∧ t.draws = s.draws + 1 ∧ t.pc = s.pc + 2 ∧ Frame [.draws] [x] s t :=
  ⟨_, hexec, rfl, rfl, s.readV_writeV_same x b, rfl, rfl,
    frame_setV (frame_setDraws_setPc s _ _) _ (frame_writeV_setPc s x b 0).1⟩

/-- Settles O47: no bit outside nn survives the mask. -/
theorem randomByteIsMasked : Obligations.RandomByteIsMasked := by
  refine fun x nn s => completes_imp
    (completes_of_exec_eq_writeV_draw_finish (i := .rndVxNn x nn) (s := s) (x := x) rfl)
    fun t ⟨hv, hrest⟩ => ⟨hv, ?_, hrest⟩
  rw [hv, BitVec.and_assoc]
  simp

end Sys2Proof.Proofs
end

section
/-! Index arithmetic and memory transfer: spec/43_index_memory.md R181 to R186, and the places bytes come from. -/

namespace Sys2Proof.Proofs

open Sys2Proof Sys2Proof.Machine

/-- Settles O49: both write I, with the sum mod 4096 or a glyph address below 0x200. -/
theorem indexArithmetic : Obligations.IndexArithmetic := by
  refine ⟨fun x s => completes_imp (completes_of_exec_eq_setIndex_finish (i := .addIVx x) (s := s) rfl)
      fun t ⟨hi, hrest⟩ => ⟨by rw [hi, toNat_indexPlus], hrest⟩,
    fun x s => completes_imp (completes_of_exec_eq_setIndex_finish (i := .ldFVx x) (s := s) rfl)
      fun t ⟨hi, hrest⟩ => ⟨by rw [hi, toNat_glyphAddress], ?_, hrest⟩⟩
  have := fontBase_le
  rw [hi, toNat_glyphAddress]
  omega

/-- Replacing memory and ending at any PC leaves everything else as it was (R31, R120). -/
theorem frame_setMem_setPc (s : State) (m : Memory) (a : Word) :
    Frame [.memory] [] s { s with mem := m, pc := a, wait := false, outcome := .continued } :=
  ⟨fun _ _ => rfl, fun _ => rfl, fun _ => ⟨rfl, fun _ => rfl⟩, fun _ => rfl, fun _ => rfl,
    fun hmem => absurd (List.mem_singleton_self _) hmem, fun _ _ _ => rfl, fun _ => rfl, rfl, rfl, rfl, rfl, rfl⟩

theorem frame_setMem_setIndex_setPc (s : State) (m : Memory) (w a : Word) :
    Frame [.memory, .index] [] s { s with mem := m, i := w, pc := a, wait := false, outcome := .continued } :=
  ⟨fun _ _ => rfl, by simp, fun _ => ⟨rfl, fun _ => rfl⟩, fun _ => rfl, fun _ => rfl, by simp,
    fun _ _ _ => rfl, fun _ => rfl, rfl, rfl, rfl, rfl, rfl⟩

/-- Settles O50: the three digits are the bytes of the block written. -/
theorem storeDecimalDigits : Obligations.StoreDecimalDigits := by
  intro x s hin
  obtain ⟨-, hstore⟩ | ⟨hout, -⟩ := execLdBVx_cases x s
  case inr => omega
  have hbyte (k : Nat) (hk : k < 3) : (s.writeBlock s.i.toNat (bcdDigits (s.readV x))).readMem (s.i.toNat + k) =
      (bcdDigits (s.readV x))[k]'hk := s.readMem_writeBlock_inside s.i.toNat (bcdDigits (s.readV x)) k hk
  have hdigit {n : Nat} (hn : n < 256) : (BitVec.ofNat 8 n).toNat = n := by rw [BitVec.toNat_ofNat]; omega
  refine ⟨_, hstore, rfl, rfl, ?_, ?_, ?_, ?_, rfl, frame_setMem_setPc s _ _⟩
  · exact (congrArg BitVec.toNat (hbyte 0 (by decide))).trans (hdigit (by omega))
  · exact (congrArg BitVec.toNat (hbyte 1 (by decide))).trans (hdigit (by omega))
  · exact (congrArg BitVec.toNat (hbyte 2 (by decide))).trans (hdigit (by omega))
  · exact fun a ha => s.readMem_writeBlock_outside s.i.toNat (bcdDigits (s.readV x)) ha

/-- FX55 stores V[k] at k bytes past the start of the block (R184). -/
theorem readMem_writeBlock_readRegsTo (s : State) (base : Nat) {x k : Reg} (hk : k ≤ x) :
    (s.writeBlock base (s.readRegsTo x)).readMem (base + k.val) = s.readV k := by
  have hlt : k.val < (s.readRegsTo x).length := by rw [s.length_readRegsTo]; exact Nat.lt_succ_of_le hk
  rw [s.readMem_writeBlock_inside base _ _ hlt, s.getElem_readRegsTo]

/-- Settles O51: where the block is in range FX55 is a block write of the registers' bytes. -/
theorem storeRegisters : Obligations.StoreRegisters := by
  intro x s hin
  obtain ⟨-, hstore⟩ | ⟨hout, -⟩ := execLdMemVx_cases x s
  case inr => omega
  refine ⟨_, hstore, rfl, rfl, fun k hk => readMem_writeBlock_readRegsTo s _ hk, fun a ha => ?_, ?_, rfl,
    frame_setMem_setIndex_setPc s _ _ _⟩
  · exact s.readMem_writeBlock_outside s.i.toNat (s.readRegsTo x) (by rwa [s.length_readRegsTo])
  · exact toNat_indexPlus s.i (x.val + 1)

/-- Settles O52: where the block is in range FX65 writes the registers up to V[x] and I. -/
theorem loadRegisters : Obligations.LoadRegisters := by
  intro x s hin
  obtain ⟨-, hload⟩ | ⟨hout, -⟩ := execLdVxMem_cases x s
  case inr => omega
  refine ⟨_, hload, rfl, rfl, fun k hk => readV_writeRegsFrom_readBlock_upTo s _ hk,
    fun k hk => readV_writeRegsFrom_readBlock_above s _ hk, toNat_indexPlus s.i (x.val + 1), rfl,
    frame_setV (frame_setIndex_setPc s _ _) _ fun r hr => ?_⟩
  have habove : x < r := by simpa using hr
  exact readV_writeRegsFrom_readBlock_above s _ habove

/-- Settles O53: out of range each of the four is on its raising path. -/
theorem dataRangeErrorsRaise : Obligations.DataRangeErrorsRaise := by
  refine ⟨fun x s hout => ?_, fun x s hout => ⟨?_, ?_⟩, fun x y n s hn hout => ?_⟩
  · obtain ⟨hin, -⟩ | ⟨-, hraise⟩ := execLdBVx_cases x s
    · omega
    · exact hraise
  · obtain ⟨hin, -⟩ | ⟨-, hraise⟩ := execLdMemVx_cases x s
    · omega
    · exact hraise
  · obtain ⟨hin, -⟩ | ⟨-, hraise⟩ := execLdVxMem_cases x s
    · omega
    · exact hraise
  · obtain ⟨hin, -⟩ | ⟨-, -, hraise⟩ := execDrwVxVyN_cases x y n s
    · omega
    · exact hraise

/-- Settles O54: each byte loaded is the byte stored from the register. -/
theorem storeThenLoadBringsRegistersBack : Obligations.StoreThenLoadBringsRegistersBack := by
  intro x s w hin
  obtain ⟨t, hstore, -, -, hbytes, -⟩ := storeRegisters x s hin
  obtain ⟨u, hload, -, -, hregs, -⟩ := loadRegisters x { t with i := s.i, v := w } hin
  exact ⟨t, u, hstore, hload, fun k hk => (hregs k hk).trans (hbytes k hk)⟩

/-- FX55 that does not raise has its whole block in memory (R184). -/
theorem index_le_of_exec_ldMemVx {x : Reg} {s t : State} (h : exec (.ldMemVx x) s = .next t) (hok : t.halt = false) :
    s.i.toNat + x.val ≤ 4095 := by
  by_contra hout
  obtain ⟨hstore, -⟩ := dataRangeErrorsRaise.2.1 x s (not_le.1 hout)
  obtain rfl := next_unique h hstore
  exact absurd hok (by simp)

/-- Settles O30: the two bytes stored are the word fetched. -/
theorem fetchSeesWhatWasStored : Obligations.FetchSeesWhatWasStored := by
  intro x s t k i hrun hexec hok hk hdec
  have hin := index_le_of_exec_ldMemVx hexec hok
  obtain ⟨u, hstore, -, -, hbytes, -⟩ := storeRegisters x s hin
  obtain rfl := next_unique hexec hstore
  have hpc : (BitVec.ofNat 16 (s.i.toNat + k.val)).toNat = s.i.toNat + k.val := by rw [BitVec.toNat_ofNat]; omega
  refine coreStep_of_decodeWord hok (by simp only [hpc]; omega) ?_
  have hhi := hbytes k.castSucc (Fin.le_def.2 (by simp; omega))
  have hlo := hbytes k.succ (Fin.le_def.2 (by simpa using hk))
  rw [← hhi, ← hlo] at hdec
  simpa [State.fetchWord, hpc, wordOfBytes, State.readMem, Nat.add_assoc] using hdec

/-! ## Reset and boot (R37, R270, R271) -/

/-- The font stands below 0x200, at its base (R38). -/
theorem unlisted_font (k : Fin 80) : Memory.unlisted (Config.fontBase + k.val) = Config.fontData[k] := by
  have := fontBase_le
  have := k.isLt
  simp [Memory.unlisted, fontByte, show Config.fontBase + k.val < 512 by omega]

theorem unlisted_outside_font {a : Nat} (ha : ¬ (Config.fontBase ≤ a ∧ a < Config.fontBase + 80)) :
    Memory.unlisted a = 0 := by
  simp only [Memory.unlisted, Config.fontSize, if_neg ha, ite_self]

/-- Settles O13: nothing is listed after a reset, so memory reads as the font in its place and 0 elsewhere. -/
theorem resetPutsEveryPieceToItsValue : Obligations.ResetPutsEveryPieceToItsValue := by
  refine ⟨fun s => ⟨rfl, fun r => ?_, rfl, rfl, rfl, rfl, fun k => ?_, rfl, unlisted_font,
    fun a ha => unlisted_outside_font ha, pixel_replicate_zero, rfl, rfl, rfl, rfl⟩, rfl⟩
  · exact Vector.getElem_replicate r.isLt
  · exact Vector.getElem_replicate k.isLt

theorem load_of_mem_window (s : State) {a : Nat} (b : Byte) (h : 0x200 ≤ a ∧ a ≤ 0xFFF) :
    s.load a b = s.writeMem a b :=
  if_pos ⟨h.1, Nat.lt_succ_of_le h.2⟩

/-- Settles O14: the loader is a block write of the cut image, a load event a write of one byte in its window. -/
theorem romIsCopiedVerbatim : Obligations.RomIsCopiedVerbatim := by
  intro s image
  refine ⟨fun j hj hcut => ?_, fun a ha => ?_, s.writeBlock_eq _ _, fun a b hlo hhi => ?_, fun a b ha => ?_⟩
  · rw [State.loadRom, State.readMem_writeBlock_inside _ _ _ j (by simp; omega), List.getElem_take]
  · exact s.readMem_writeBlock_outside 0x200 _ (by rwa [List.length_take, Nat.min_comm])
  · rw [load_of_mem_window s b ⟨hlo, hhi⟩]
    exact ⟨s.readMem_writeMem_same a b, fun a' ha' => s.readMem_writeMem_other b ha', rfl⟩
  · exact if_neg fun h => ha ⟨h.1, Nat.le_of_lt_succ h.2⟩

end Sys2Proof.Proofs
end

section
/-! Drawing: spec/44_display.md R191 to R193. -/

namespace Sys2Proof.Proofs

open Sys2Proof Sys2Proof.Machine

/-- The sprite's bit at a pixel, from the start position of the meaning of DXYN (R191). -/
theorem spriteBit_eq (s : State) (x y : Reg) (n : Fin 16) (px : Fin 64) (py : Fin 32) : spriteBit s x y n px py =
    (decide (startRow (s.readV y) ≤ py.val ∧ py.val < startRow (s.readV y) + n.val ∧
        startColumn (s.readV x) ≤ px.val ∧ px.val < startColumn (s.readV x) + 8) &&
      (s.readMem (s.i.toNat + (py.val - startRow (s.readV y)))).getLsbD (7 - (px.val - startColumn (s.readV x)))) := rfl

/-- The bit that drawing finds at a pixel, in the rows read from memory, is the sprite's bit there (R191, R192). -/
theorem getMsbD_spriteRow_readBlock (s : State) (x y : Reg) (n : Fin 16) (px : Fin 64) (py : Fin 32) :
    (decide (startRow (s.readV y) ≤ py.val ∧ py.val < startRow (s.readV y) + (s.readBlock s.i.toNat n.val).length) &&
      (spriteRow (startColumn (s.readV x)) ((s.readBlock s.i.toNat n.val).getD (py.val - startRow (s.readV y)) 0)).getMsbD
        px) = spriteBit s x y n px py := by
  rw [getMsbD_spriteRow _ _ _ px.isLt, s.length_readBlock, spriteBit_eq]
  by_cases hrow : startRow (s.readV y) ≤ py.val ∧ py.val < startRow (s.readV y) + n.val
  · have hlt : py.val - startRow (s.readV y) < (s.readBlock s.i.toNat n.val).length := by
      rw [s.length_readBlock]
      omega
    rw [List.getD_eq_getElem _ _ hlt, s.getElem_readBlock]
    simp [hrow]
  · obtain hy | hy := not_and_or.1 hrow <;> simp [hy]

/-- What DXYN answers where its bytes are in range: the pixels toggled by the sprite, and in VF whether a set pixel met a
set bit of it (R191). -/
theorem exec_drwVxVyN_of_inRange (x y : Reg) (n : Fin 16) (s : State)
    (hin : n.val = 0 ∨ s.i.toNat + n.val - 1 ≤ 4095) :
    ∃ (p : Screen) (coll : Bool), exec (.drwVxVyN x y n) s = .next { s with
        v := s.v.set regF (flagByte coll), pix := p, pc := s.pc + 2, wait := false, outcome := .continued } ∧
      (∀ px py, p.pixel px py = (s.pixel px py ^^ spriteBit s x y n px py)) ∧
      (coll = true ↔ ∃ px py, s.pixel px py = true ∧ spriteBit s x y n px py = true) := by
  obtain ⟨-, hdraw⟩ | ⟨hn, hout, -⟩ := execDrwVxVyN_cases x y n s
  case inr => omega
  refine ⟨_, _, hdraw, fun px py => ?_, ?_⟩
  · rw [pixel_drawRows, getMsbD_spriteRow_readBlock]
    rfl
  · rw [collision_drawRows]
    simp only [← getMsbD_spriteRow_readBlock, Bool.and_eq_true, decide_eq_true_eq, Bool.false_eq_true, false_or]
    rfl

/-- Settles O56: a pixel goes from set to clear exactly where it meets a set bit of the sprite. -/
theorem drawTogglesTheSpritePixels : Obligations.DrawTogglesTheSpritePixels := by
  intro x y n s hin
  obtain ⟨p, coll, hdraw, hpixel, hcoll⟩ := exec_drwVxVyN_of_inRange x y n s hin
  have hflag := s.readV_writeV_same 15 (flagByte coll)
  refine ⟨_, hdraw, rfl, rfl, hpixel, ?_, ?_, rfl,
    frame_setV (frame_setPix_setPc s p _) _ (frame_writeV_setPc s 15 (flagByte coll) 0).1⟩
  · refine (iff_of_eq (congrArg (· = 1) hflag)).trans ((flagByte_eq_one_iff coll).trans (hcoll.trans ?_))
    refine exists_congr fun px => exists_congr fun py => and_congr_right fun hset => ?_
    rw [State.pixel, hpixel, hset]
    simp
  · refine (or_congr (iff_of_eq (congrArg (· = 1) hflag)) (iff_of_eq (congrArg (· = 0) hflag))).2 ?_
    cases coll <;> simp [flagByte]

theorem spriteBit_congr {s t : State} (hv : t.v = s.v) (hi : t.i = s.i) (hmem : ∀ a, t.readMem a = s.readMem a)
    (x y : Reg) (n : Fin 16) : spriteBit t x y n = spriteBit s x y n := by
  funext px py
  simp only [spriteBit, State.readV_congr hv, hi, hmem]

/-- Settles O57: the second draw meets the same sprite, so that it toggles every pixel back, and on an empty background it
meets just the pixels the first has set. -/
theorem drawingTwiceRestoresTheScreen : Obligations.DrawingTwiceRestoresTheScreen := by
  intro x y n s hin
  obtain ⟨t, hdraw, -, -, hpixel, hflag, hbit, -, -, hi, -, -, -, hmem, -⟩ := drawTogglesTheSpritePixels x y n s hin
  have hi' : t.i = s.i := hi (by simp)
  have hsprite : spriteBit { t with v := s.v } x y n = spriteBit s x y n :=
    spriteBit_congr (s := s) (t := { t with v := s.v }) rfl hi' (hmem (by simp)) x y n
  obtain ⟨u, hdraw', -, -, hpixel', hflag', -⟩ :=
    drawTogglesTheSpritePixels x y n { t with v := s.v } (by simpa only [hi'] using hin)
  have hback : ∀ px py, u.pixel px py = s.pixel px py := fun px py => by
    rw [hpixel', hsprite, show State.pixel { t with v := s.v } px py = t.pixel px py from rfl, hpixel, Bool.xor_assoc,
      Bool.xor_self, Bool.xor_false]
  refine ⟨t, u, hdraw, hdraw', hback, fun hempty => ⟨?_, ?_⟩⟩
  · refine hbit.resolve_left fun h1 => ?_
    obtain ⟨px, py, hset, -⟩ := hflag.1 h1
    exact absurd hset (by simp [hempty])
  · rw [hflag']
    refine exists_congr fun px => exists_congr fun py => ?_
    rw [hback, hempty, show State.pixel { t with v := s.v } px py = t.pixel px py from rfl, hpixel, hempty]
    simp

end Sys2Proof.Proofs
end

section
/-! Keypad and timers: spec/45_keypad_timers.md R200 to R206. -/

namespace Sys2Proof.Proofs

open Sys2Proof Sys2Proof.Machine

/-- Settles O58: the key named is the low nibble of V[x]. -/
theorem keySkips : Obligations.KeySkips := by
  refine ⟨fun x s k hk => ?_, fun x s k hk => ?_⟩
  all_goals obtain rfl : keyIndex (s.readV x) = k := Fin.ext ((val_keyIndex _).trans hk.symm)
  · exact completes_of_exec_eq_skipIf rfl Iff.rfl
  · exact completes_of_exec_eq_skipIf rfl (iff_of_eq (Bool.not_eq_true' _))

theorem toNat_keyByte (k : Key) : (keyByte k).toNat = k.val := by
  rw [keyByte, BitVec.toNat_ofNat]
  omega

/-- Settles O59: the two paths of FX0A exclude each other. -/
theorem waitForKey : Obligations.WaitForKey := by
  refine ⟨fun x s hnone => ?_, fun x s ⟨j, hj⟩ => ?_⟩
  · obtain ⟨-, hblock⟩ | ⟨k, hk, -⟩ := execLdVxK_cases x s
    · exact hblock
    · exact absurd hk (by simp [hnone k])
  · obtain ⟨hnone, -⟩ | ⟨k, hk, hstore⟩ := execLdVxK_cases x s
    · exact absurd hj (by simp [hnone j])
    · exact completes_imp (completes_of_exec_eq_writeV_draw_finish hstore)
        fun t ⟨hv, _, hrest⟩ => ⟨⟨k, hk, by rw [hv, toNat_keyByte]⟩, hrest⟩

theorem frame_setDelay_setPc (s : State) (b : Byte) (a : Word) :
    Frame [.delay] [] s { s with dt := b, pc := a, wait := false, outcome := .continued } :=
  ⟨fun _ _ => rfl, fun _ => rfl, fun _ => ⟨rfl, fun _ => rfl⟩, fun hdelay => absurd (List.mem_singleton_self _) hdelay,
    fun _ => rfl, fun _ _ => rfl, fun _ _ _ => rfl, fun _ => rfl, rfl, rfl, rfl, rfl, rfl⟩

theorem frame_setSound_setPc (s : State) (b : Byte) (a : Word) :
    Frame [.sound] [] s { s with st := b, pc := a, wait := false, outcome := .continued } :=
  ⟨fun _ _ => rfl, fun _ => rfl, fun _ => ⟨rfl, fun _ => rfl⟩, fun _ => rfl,
    fun hsound => absurd (List.mem_singleton_self _) hsound, fun _ _ => rfl, fun _ _ _ => rfl, fun _ => rfl,
    rfl, rfl, rfl, rfl, rfl⟩

theorem soundOn_iff (s : State) : s.soundOn = true ↔ 0 < s.st.toNat := by
  rw [State.soundOn, bne_iff_ne, ne_eq, BitVec.toNat_eq, Nat.pos_iff_ne_zero]
  rfl

/-- Settles O60: each is one write, of V[x], DT or ST. -/
theorem timerTransfers : Obligations.TimerTransfers :=
  ⟨fun _ _ => completes_of_exec_eq_writeV_finish rfl,
    fun _ s => ⟨_, State.finish_eq _, rfl, rfl, rfl, rfl, frame_setDelay_setPc s _ _⟩,
    fun _ s => ⟨_, State.finish_eq _, rfl, rfl, rfl, soundOn_iff _, rfl, frame_setSound_setPc s _ _⟩⟩

end Sys2Proof.Proofs
end

section
/-! The fatal errors of instructions: spec/60_exceptions.md R241 to R249. -/

namespace Sys2Proof.Proofs

open Sys2Proof Sys2Proof.Machine

/-- An instruction that completes raises nothing (R120). -/
theorem halt_of_completes {i : Instr} {s t : State} {P : State → Prop} (h : exec i s = .next t)
    (hcompletes : Completes i s P) : t.halt = s.halt := by
  obtain ⟨u, hexec, -, ho, -⟩ := hcompletes
  obtain rfl := next_unique h hexec
  obtain ⟨v, hend, -, -, hhalt, -⟩ | ⟨-, hend⟩ | ⟨-, c, n, -, hend⟩ := exec_ends i s
  · obtain rfl := next_unique h hend
    exact hhalt
  · obtain rfl := next_unique h hend
    cases ho
  · obtain rfl := next_unique h hend
    cases ho

/-- Settles O23: each instruction that can raise does so on its listed condition and completes otherwise. -/
theorem instructionsRaiseExactlyTheListedErrors : Obligations.InstructionsRaiseExactlyTheListedErrors := by
  intro i s t hrun h
  cases i
  case call nnn =>
    by_cases hfull : s.sp.val = 16
    · obtain rfl := next_unique h (stackErrorsRaise.1 nnn s hfull)
      simp [hfull]
    · have hhalt := halt_of_completes h (callPushesTheNextAddress nnn s (by omega))
      simp [hhalt, hrun, hfull]
  case ret =>
    by_cases hempty : s.sp.val = 0
    · obtain rfl := next_unique h (stackErrorsRaise.2 s hempty)
      simp [hempty]
    · have hhalt := halt_of_completes h (returnPopsTheAddress s (by omega))
      simp [hhalt, hrun, hempty]
  case ldBVx x =>
    by_cases hout : 4095 < s.i.toNat + 2
    · obtain rfl := next_unique h (dataRangeErrorsRaise.1 x s hout)
      simp [hout]
    · have hhalt := halt_of_completes h (storeDecimalDigits x s (by omega))
      simp [hhalt, hrun, hout]
  case ldMemVx x =>
    by_cases hout : 4095 < s.i.toNat + x.val
    · obtain rfl := next_unique h (dataRangeErrorsRaise.2.1 x s hout).1
      simp [hout]
    · have hhalt := halt_of_completes h (storeRegisters x s (by omega))
      simp [hhalt, hrun, hout]
  case ldVxMem x =>
    by_cases hout : 4095 < s.i.toNat + x.val
    · obtain rfl := next_unique h (dataRangeErrorsRaise.2.1 x s hout).2
      simp [hout]
    · have hhalt := halt_of_completes h (loadRegisters x s (by omega))
      simp [hhalt, hrun, hout]
  case drwVxVyN x y n =>
    by_cases hout : 0 < n.val ∧ 4095 < s.i.toNat + n.val - 1
    · obtain rfl := next_unique h (dataRangeErrorsRaise.2.2 x y n s hout.1 hout.2)
      simpa using hout
    · have hhalt := halt_of_completes h (drawTogglesTheSpritePixels x y n s (by omega))
      simpa [hhalt, hrun] using hout
  case ldVxK x =>
    rw [exec_ldVxK] at h
    split at h <;> cases h <;> simp [hrun]
  all_goals cases h; simp [hrun, State.writeFlagThenResult]

end Sys2Proof.Proofs
end
